-- ==== Sys2Proof/Word.lean ====
section
/-! DEFINITION. The value types of 00_scope.md rule R8: 32-bit words, bytes, the 64-byte block and its 16 message words. -/

namespace Sys2Proof

/-- `u32` of rule R8: every register, address and length of the engine. -/
abbrev Word := BitVec 32

/-- `u8` of rule R8. -/
abbrev Byte := BitVec 8

/-- A 64-byte block, byte `k` at index `k` (rules R7, R22). -/
abbrev Block := Vector Byte 64

/-- The 16 message words `X[0..15]` of a block (rule R91). -/
abbrev MessageWords := Vector Word 16

end Sys2Proof
end

