-- ==== Sys2Proof/Syntax.lean ====
section
/-! DEFINITION. The instructions: one constructor per row of spec/opcode_table.json, seven commands (format C,
30_encoding.md rule R71) and the 64 steps of the Block Transform (format S, rules R76 and R79). -/

namespace Sys2Proof

/-- One row of the opcode table. The operands `ADDR` and `LEN` are registers sampled when the command starts (rule R73);
the only operand in an instruction is ABSORBI's byte, and its bound 0 to 255 is its type (rule R72). -/
inductive Instr where
  /-- `INIT`, rule R110: a fresh accumulator. -/
  | init
  /-- `ABSORBI b`, rule R115: absorb one immediate byte. -/
  | absorbi (imm8 : Byte)
  /-- `ABSORB a, n`, rule R116: absorb a slice of memory. -/
  | absorb
  /-- `XFORM a`, rule R104: one direct Block Transform. -/
  | xform
  /-- `FINAL a, t`, rule R130: finalization. -/
  | final
  /-- `DIGEST a, n`, rule R150: the digest of a container. -/
  | digest
  /-- `SIGN a, n`, rule R152: sign a container in place. -/
  | sign
  -- round 1, rule R94
  | step00 | step01 | step02 | step03 | step04 | step05 | step06 | step07
  | step08 | step09 | step10 | step11 | step12 | step13 | step14 | step15
  -- round 2, rule R95
  | step16 | step17 | step18 | step19 | step20 | step21 | step22 | step23
  | step24 | step25 | step26 | step27 | step28 | step29 | step30 | step31
  -- round 3, rule R97
  | step32 | step33 | step34 | step35 | step36 | step37 | step38 | step39
  | step40 | step41 | step42 | step43 | step44 | step45 | step46 | step47
  -- round 4, rule R98
  | step48 | step49 | step50 | step51 | step52 | step53 | step54 | step55
  | step56 | step57 | step58 | step59 | step60 | step61 | step62 | step63
  deriving DecidableEq, Repr

end Sys2Proof
end

