-- ==== Sys2Proof/WellFormed.lean ====
section
/-! DEFINITION. What is well formed: the codes an instruction can have (30_encoding.md rules R70, R71, R74, R79) and the host's
register accesses (10_state.md rule R37). An `Instr` itself needs no check: the bound of its one operand is its type. -/

namespace Sys2Proof

/-- Where an instruction comes from: the 32-bit word the host writes to `CMD` (rule R29), or the 6-bit step counter of the
Block Transform (rule R76). -/
inductive Code where
  | command (w : Word)
  | step (i : BitVec 6)
  deriving DecidableEq, Repr

/-- The `mask` and `match` columns of rule R71, one pair a command. -/
def commandRows : List (Word × Word) :=
  [(0xFFFFFFFF, 0x00000001), (0xFFFF00FF, 0x00000002), (0xFFFFFFFF, 0x00000003), (0xFFFFFFFF, 0x00000004),
    (0xFFFFFFFF, 0x00000005), (0xFFFFFFFF, 0x00000006), (0xFFFFFFFF, 0x00000007)]

/-- A code is well formed when its word matches a row of rule R71; every step code is (rule R79). -/
def Code.wf : Code → Bool
  | .command w => commandRows.any fun row => (w &&& row.1) == row.2
  | .step _ => true

/-- A host register access the spec defines: 32 bits, naturally aligned, at one of the twelve offsets below 0x30 (rule R37). -/
def accessWf (offset size : Nat) : Bool :=
  size == 4 && offset % 4 == 0 && decide (offset < 0x30)

end Sys2Proof
end

