-- ==== Sys2Proof/Decode.lean ====
section
/-! DEFINITION. Decoding and encoding (30_encoding.md rules R70 to R79): the command word the host writes to `CMD`, and the
6-bit step code. Decoding is total and rejects by name. -/

namespace Sys2Proof

/-- Why a command word is illegal (rule R74). Every one of them raises `IllegalCommand` (rule R175). -/
inductive Illegal where
  /-- A bit of 7:4 or of 31:16 is set. -/
  | reservedBits
  /-- `op` is 0 or 8 to 15. -/
  | opcode
  /-- `imm8` is not 0 and the command is not ABSORBI. -/
  | immediate
  deriving DecidableEq, Repr

/-- Field `op`, bits 3:0 (rule R70). -/
def opField (w : Word) : BitVec 4 := w.extractLsb' 0 4

/-- Reserved bits 7:4 (rule R70). -/
def reservedLow (w : Word) : BitVec 4 := w.extractLsb' 4 4

/-- Field `imm8`, bits 15:8 (rules R70, R72). -/
def imm8Field (w : Word) : Byte := w.extractLsb' 8 8

/-- Reserved bits 31:16 (rule R70). -/
def reservedHigh (w : Word) : BitVec 16 := w.extractLsb' 16 16

/-- A command without an immediate: its `imm8` must be 0 (rule R70). -/
def plainCommand (imm8 : Byte) (i : Instr) : Except Illegal Instr :=
  if imm8 = 0 then .ok i else .error .immediate

/-- The command decoder, total on 32-bit words (rules R70, R71, R74). -/
def decodeCommand (w : Word) : Except Illegal Instr :=
  if reservedLow w ≠ 0 ∨ reservedHigh w ≠ 0 then .error .reservedBits
  else
    match (opField w).toNat with
    | 1 => plainCommand (imm8Field w) .init
    | 2 => .ok (.absorbi (imm8Field w))
    | 3 => plainCommand (imm8Field w) .absorb
    | 4 => plainCommand (imm8Field w) .xform
    | 5 => plainCommand (imm8Field w) .final
    | 6 => plainCommand (imm8Field w) .digest
    | 7 => plainCommand (imm8Field w) .sign
    | _ => .error .opcode

/-- The step decoder: there is no illegal step, every 6-bit code is one (rules R76, R79). -/
def decodeStep (i : BitVec 6) : Instr :=
  match i.toNat with
  | 0 => .step00
  | 1 => .step01
  | 2 => .step02
  | 3 => .step03
  | 4 => .step04
  | 5 => .step05
  | 6 => .step06
  | 7 => .step07
  | 8 => .step08
  | 9 => .step09
  | 10 => .step10
  | 11 => .step11
  | 12 => .step12
  | 13 => .step13
  | 14 => .step14
  | 15 => .step15
  | 16 => .step16
  | 17 => .step17
  | 18 => .step18
  | 19 => .step19
  | 20 => .step20
  | 21 => .step21
  | 22 => .step22
  | 23 => .step23
  | 24 => .step24
  | 25 => .step25
  | 26 => .step26
  | 27 => .step27
  | 28 => .step28
  | 29 => .step29
  | 30 => .step30
  | 31 => .step31
  | 32 => .step32
  | 33 => .step33
  | 34 => .step34
  | 35 => .step35
  | 36 => .step36
  | 37 => .step37
  | 38 => .step38
  | 39 => .step39
  | 40 => .step40
  | 41 => .step41
  | 42 => .step42
  | 43 => .step43
  | 44 => .step44
  | 45 => .step45
  | 46 => .step46
  | 47 => .step47
  | 48 => .step48
  | 49 => .step49
  | 50 => .step50
  | 51 => .step51
  | 52 => .step52
  | 53 => .step53
  | 54 => .step54
  | 55 => .step55
  | 56 => .step56
  | 57 => .step57
  | 58 => .step58
  | 59 => .step59
  | 60 => .step60
  | 61 => .step61
  | 62 => .step62
  | _ => .step63

/-- The decoder over both kinds of code. -/
def decode : Code → Except Illegal Instr
  | .command w => decodeCommand w
  | .step i => .ok (decodeStep i)

/-- A command word put together from its fields (rule R70): `op` in 3:0, `imm8` in 15:8, zeros elsewhere. -/
def commandWord (op : BitVec 4) (imm8 : Byte) : Word :=
  BitVec.ofNat 32 (op.toNat + 256 * imm8.toNat)

/-- The encoder, from the opcode map of rule R71 and the step index of rule R76. -/
def encode : Instr → Code
  | .init => .command (commandWord 0x1 0)
  | .absorbi imm8 => .command (commandWord 0x2 imm8)
  | .absorb => .command (commandWord 0x3 0)
  | .xform => .command (commandWord 0x4 0)
  | .final => .command (commandWord 0x5 0)
  | .digest => .command (commandWord 0x6 0)
  | .sign => .command (commandWord 0x7 0)
  | .step00 => .step 0
  | .step01 => .step 1
  | .step02 => .step 2
  | .step03 => .step 3
  | .step04 => .step 4
  | .step05 => .step 5
  | .step06 => .step 6
  | .step07 => .step 7
  | .step08 => .step 8
  | .step09 => .step 9
  | .step10 => .step 10
  | .step11 => .step 11
  | .step12 => .step 12
  | .step13 => .step 13
  | .step14 => .step 14
  | .step15 => .step 15
  | .step16 => .step 16
  | .step17 => .step 17
  | .step18 => .step 18
  | .step19 => .step 19
  | .step20 => .step 20
  | .step21 => .step 21
  | .step22 => .step 22
  | .step23 => .step 23
  | .step24 => .step 24
  | .step25 => .step 25
  | .step26 => .step 26
  | .step27 => .step 27
  | .step28 => .step 28
  | .step29 => .step 29
  | .step30 => .step 30
  | .step31 => .step 31
  | .step32 => .step 32
  | .step33 => .step 33
  | .step34 => .step 34
  | .step35 => .step 35
  | .step36 => .step 36
  | .step37 => .step 37
  | .step38 => .step 38
  | .step39 => .step 39
  | .step40 => .step 40
  | .step41 => .step 41
  | .step42 => .step 42
  | .step43 => .step 43
  | .step44 => .step 44
  | .step45 => .step 45
  | .step46 => .step 46
  | .step47 => .step 47
  | .step48 => .step 48
  | .step49 => .step 49
  | .step50 => .step 50
  | .step51 => .step 51
  | .step52 => .step 52
  | .step53 => .step 53
  | .step54 => .step 54
  | .step55 => .step 55
  | .step56 => .step 56
  | .step57 => .step 57
  | .step58 => .step 58
  | .step59 => .step 59
  | .step60 => .step 60
  | .step61 => .step 61
  | .step62 => .step 62
  | .step63 => .step 63

/-- How the code of a table word is laid out: a row of at most 8 bits is a step code, a longer one a command word
(spec/opcode_table.json, width 6 and width 32). A number with bits above the code is refused (log 23). -/
def tableCode (nbits w : Nat) : Option Code :=
  if nbits ≤ 8 then
    if w < 64 then some (.step (BitVec.ofNat 6 w)) else none
  else
    if w < 2 ^ 32 then some (.command (BitVec.ofNat 32 w)) else none

/-- The instruction the decoder reads from a word of the opcode table. -/
def decodeTableWord (nbits w : Nat) : Option Instr :=
  match tableCode nbits w with
  | none => none
  | some c => (decode c).toOption

end Sys2Proof
end

