-- ==== Sys2Proof/Config.lean ====
section
/-! DEFINITION. What is fixed for the machine, and the values the spec leaves free. -/

namespace Sys2Proof

/-- The container memory has 2^32 bytes, all populated (20_memory.md rule R50; 00_scope.md rule R7). -/
abbrev Config.memorySize : Nat := 2 ^ 32

/-- What an address that nothing has written reads as (DESIGN CHOICE, log 8: the spec gives memory no contents at power-on). -/
abbrev Config.unlistedByte : Byte := 0

/-- The free draws of 10_state.md rule R39: what a host read of `H0` to `H3`, `C0`, `C1`, `FILL` returns before the first
accumulator is created. Draw `n` is `freeWord n`; nothing constrains it (log 1). -/
opaque Config.freeWord : Nat → Word

/-- The free choices of 93_implementation_defined.md item U6: whether a digest-slot byte was already written when reset fell into
SIGN. Choice `n` is `freeBit n`; nothing constrains it (log 13). -/
opaque Config.freeBit : Nat → Bool

end Sys2Proof
end

