-- ==== Sys2Proof/Machine/State.lean ====
section
/-! DEFINITION. The state of the engine, its stops and its reset (10_state.md, 60_exceptions.md rule R170, 70_reset_and_hazards.md
rule R200). Plain data throughout. -/

namespace Sys2Proof.Machine

/-- The four state words `H[0..3]` (10_state.md rule R20). -/
abbrev HWords := Vector Word 4

/-- The accumulator, the document's AccumulatorState (10_state.md rules R20 to R25). -/
structure Accumulator where
  /-- `H[0..3]`, rule R20. -/
  h : HWords
  /-- `P[0..63]`, rule R22. -/
  p : Block
  /-- `C[0]`, the low half of the bit counter, rule R23. -/
  c0 : Word
  /-- `C[1]`, the high half of the bit counter, rule R23. -/
  c1 : Word
  /-- `fill`, 0 to 63 between commands, rule R24 (log 20). -/
  fill : BitVec 6
  deriving DecidableEq, Repr

/-- The field `SESS` of `STATUS` (10_state.md rules R30, R31). -/
inductive Session where
  | NONE
  | OPEN
  | DONE
  deriving DecidableEq, Repr

/-- The engine's five faults (60_exceptions.md rule R170). Raising one is a next state of the machine, not a stop. -/
inductive FaultCode where
  | shortContainer
  | illegalCommand
  | noSession
  | badTail
  | rangeError
  deriving DecidableEq, Repr

/-- The transform unit: the working registers, message words and step counter of the Block Transform (10_state.md rules R26, R27).
`active` says that a transform is in progress. Between commands it holds nothing a command reads (log 3). -/
structure TransformUnit where
  a : Word
  b : Word
  c : Word
  d : Word
  x : MessageWords
  step : BitVec 6
  active : Bool
  deriving DecidableEq, Repr

/-- The twelve host registers (10_state.md rule R28). -/
inductive HostReg where
  | CMD | STATUS | ADDR | LEN | H0 | H1 | H2 | H3 | C0 | C1 | FILL | ECMD
  deriving DecidableEq, Repr

/-- One thing the outside world does to the engine (70_reset_and_hazards.md rule R214; 20_memory.md rule R64). -/
inductive HostAccess where
  /-- A register write of `size` bytes at byte offset `offset` (10_state.md rule R37). -/
  | write (offset size : Nat) (value : Word)
  /-- A register read. -/
  | read (offset size : Nat)
  /-- The host stores a byte into container memory between commands (log 9). -/
  | memWrite (addr : Nat) (value : Byte)
  /-- The host reads a byte of container memory between commands (log 9). -/
  | memRead (addr : Nat)
  /-- The reset input, asserted between accesses (70_reset_and_hazards.md rule R200). -/
  | reset
  /-- A `CMD` write of `w`, and the reset input asserted while that command runs (rule R200, item U6; log 13). -/
  | commandThenReset (w : Word)
  deriving DecidableEq, Repr

/-- Container memory as (address, byte) pairs in one canonical form: addresses strictly rising, no entry equal to
`Config.unlistedByte` (20_memory.md rule R50). -/
abbrev Memory := List Host.Cell

/-- The whole state. -/
structure State where
  /-- The accumulator (10_state.md rules R20 to R25). -/
  acc : Accumulator
  /-- `SESS` (10_state.md rule R31). -/
  sess : Session
  /-- `ERR`: no fault, or the first fault since reset (10_state.md rule R32). -/
  err : Option FaultCode
  /-- `ECMD` (10_state.md rule R36). -/
  ecmd : Word
  /-- `ADDR` (10_state.md rule R33). -/
  addr : Word
  /-- `LEN` (10_state.md rule R34). -/
  len : Word
  /-- The transform unit (10_state.md rules R26, R27). -/
  unit : TransformUnit
  /-- Container memory `M` (20_memory.md rule R50). -/
  mem : Memory
  /-- The model's own field: the host accesses still to come, oldest first (log 5). -/
  host : List HostAccess
  /-- The model's own field: what the host's reads returned, newest first (log 6). -/
  reads : List Word
  /-- The model's own field: how many free values have been drawn (log 7). -/
  draws : Nat
  deriving DecidableEq, Repr

/-- Why a step can stop with a fault. The engine's own faults are not here: they are next states (60_exceptions.md rule R176). -/
inductive Fault where
  /-- Raised by the host's own access to a memory address of 2^32 or more, which does not exist (20_memory.md rule R50).
  Safe: the model stops where the platform's behaviour is not given (log 9). -/
  | noSuchAddress (addr : Nat)
  deriving DecidableEq, Repr

/-- Why a step can be refused. -/
inductive Refusal where
  /-- Raised only by an arm of `exec` that has no meaning yet. Safe. No arm of this model does. -/
  | notModelled (mnemonic : String)
  /-- Raised by a host register access that is not an aligned 32-bit access at one of the twelve offsets: "outside this spec: a
  model refuses it" (10_state.md rule R37, item U7). Safe (log 10). -/
  | hostAccessOutsideSpec (offset size : Nat)
  deriving DecidableEq, Repr

/-- What a step or a meaning answers. -/
abbrev Out := Host.Outcome State Fault Refusal

/-- The accumulator's record at reset. The spec leaves every one of these values unspecified (10_state.md rule R39); zero is a
DESIGN CHOICE that no read shows and no command reads (log 1, log 2). -/
def Accumulator.atReset : Accumulator :=
  { h := #v[0, 0, 0, 0], p := Vector.replicate 64 0, c0 := 0, c1 := 0, fill := 0 }

/-- The transform unit at reset: no transform in progress (DESIGN CHOICE, log 3). -/
def TransformUnit.atReset : TransformUnit :=
  { a := 0, b := 0, c := 0, d := 0, x := Vector.replicate 16 0, step := 0, active := false }

/-- The machine right after reset (10_state.md rule R39; 70_reset_and_hazards.md rules R200, R201): idle, memory with nothing
listed, no host access pending. -/
def State.reset : State :=
  { acc := Accumulator.atReset
    sess := .NONE
    err := none
    ecmd := 0
    addr := 0
    len := 0
    unit := TransformUnit.atReset
    mem := []
    host := []
    reads := []
    draws := 0 }

end Sys2Proof.Machine
end

