-- ==== Sys2Proof/Machine/Ops.lean ====
section
/-! DEFINITION. The shared operations: byte order, blocks, container memory, taking a fault, hardware reset, and the frame every
command runs in. -/

namespace Sys2Proof.Machine

/-! ## Byte order (00_scope.md rule R9, 20_memory.md rule R55) -/

/-- `LE32(x)`: the four bytes of a word, least significant first (rule R9). -/
def le32 (x : Word) : List Byte :=
  [x.extractLsb' 0 8, x.extractLsb' 8 8, x.extractLsb' 16 8, x.extractLsb' 24 8]

/-- `word_le(b0, b1, b2, b3) = b0 + 2^8 b1 + 2^16 b2 + 2^24 b3` (rule R9). -/
def wordLe (b0 b1 b2 b3 : Byte) : Word :=
  BitVec.ofNat 32 (b0.toNat + 2 ^ 8 * b1.toNat + 2 ^ 16 * b2.toNat + 2 ^ 24 * b3.toNat)

/-- `rotl32(x, s)` for `1 ≤ s ≤ 31` (rule R9). -/
def rotl32 (x : Word) (s : Nat) : Word := (x <<< s) ||| (x >>> (32 - s))

/-- The sixteen digest bytes `D[0..15]` of the state words (10_state.md rule R38). -/
def digestBytes (h : HWords) : List Byte := le32 h[0] ++ le32 h[1] ++ le32 h[2] ++ le32 h[3]

/-! ## Blocks -/

/-- The block whose byte `k` is `f k`. -/
def blockOf (f : Nat → Byte) : Block := ⟨((List.range 64).map f).toArray, by simp⟩

/-- Byte `k` of a block, for `k` in 0 to 63. -/
def byteAt (p : Block) (k : Nat) : Byte := p[k]?.getD 0

/-- `P[fill] <- b` (10_state.md rule R22). -/
def putByte (p : Block) (fill : BitVec 6) (b : Byte) : Block := p.set fill.toNat b fill.isLt

/-- The message words of a block: `X[j] = word_le(B[4j], B[4j+1], B[4j+2], B[4j+3])` (40_block_transform.md rule R91). -/
def messageWords (p : Block) : MessageWords :=
  ⟨((List.range 16).map fun j =>
      wordLe (byteAt p (4 * j)) (byteAt p (4 * j + 1)) (byteAt p (4 * j + 2)) (byteAt p (4 * j + 3))).toArray, by simp⟩

/-- `X[k]`, for `k` in 0 to 15. -/
def wordAt (x : MessageWords) (k : Nat) : Word := x[k]?.getD 0

/-! ## Container memory (20_memory.md rules R50, R56, R57) -/

/-- The form every memory has: addresses strictly rising and below 2^32, no entry equal to what an unlisted address reads as. -/
abbrev Memory.wf (m : Memory) : Prop :=
  m.Pairwise (fun c d => c.1 < d.1) ∧ ∀ c ∈ m, c.1 < Config.memorySize ∧ c.2 ≠ Config.unlistedByte

/-- `MemRead(addr, 1)` (rule R56). -/
def Memory.read : Memory → Nat → Byte
  | [], _ => Config.unlistedByte
  | (k, v) :: m, a => if k = a then v else Memory.read m a

/-- `MemWrite(addr, 1, v)` (rule R57): one byte, in canonical form. -/
def Memory.write : Memory → Nat → Byte → Memory
  | [], a, v => if v = Config.unlistedByte then [] else [(a, v)]
  | (k, u) :: m, a, v =>
    if a < k then
      if v = Config.unlistedByte then (k, u) :: m else (a, v) :: (k, u) :: m
    else if a = k then
      if v = Config.unlistedByte then m else (a, v) :: m
    else (k, u) :: Memory.write m a v

/-- `MemRead(addr, n)`: the sum of `M[addr + i] · 2^(8i)` (rule R56). No command uses `n > 1`. -/
def Memory.readLe (m : Memory) (addr : Nat) : Nat → Nat
  | 0 => 0
  | n + 1 => Memory.readLe m addr n + (m.read (addr + n)).toNat * 2 ^ (8 * n)

/-- Byte writes of a list at ascending addresses (rules R57, R63). Irreducible, so that no proof unfolds sixteen writes by accident;
the kernel still evaluates it. -/
@[irreducible] def Memory.writeBytes : Memory → Nat → List Byte → Memory
  | m, _, [] => m
  | m, a, b :: bs => Memory.writeBytes (m.write a b) (a + 1) bs

/-- `MemWrite(addr, n, v)`: byte `i` of `v` to `addr + i` (rule R57). No command uses `n > 1` in one access. -/
def Memory.writeLe (m : Memory) (addr n v : Nat) : Memory :=
  m.writeBytes addr ((List.range n).map fun i => BitVec.ofNat 8 (v / 2 ^ (8 * i)))

/-- The slice `M[addr .. addr + n − 1]`, ascending (rules R56, R63). -/
def Memory.slice (m : Memory) (addr n : Nat) : List Byte := (List.range n).map fun i => m.read (addr + i)

/-- The 64-byte block at `addr` (rule R56). -/
def Memory.block (m : Memory) (addr : Nat) : Block := blockOf fun i => m.read (addr + i)

/-! ## Faults, reset, and the frame of a command -/

/-- Fault entry (60_exceptions.md rule R176): `ERR` takes the code, `ECMD` the command word, nothing else changes. -/
def takeFault (f : FaultCode) (w : Word) (s : State) : State := { s with err := some f, ecmd := w }

/-- Hardware reset, the only way out of the halted state (60_exceptions.md rule R179; 70_reset_and_hazards.md rule R200): every
register at its reset value, container memory unchanged. What the host has still to do and has read is not the engine's. -/
def hardwareReset (s : State) : State :=
  { State.reset with mem := s.mem, host := s.host, reads := s.reads, draws := s.draws }

/-- The frame of a command whose word is `w` (60_exceptions.md rules R176 to R178): discarded by a halted engine; else its
checks, the first that applies raising its fault before anything has changed; else its effect, which cannot fault. -/
def runCommand (w : Word) (check : State → Option FaultCode) (effect : State → State) (s : State) : Out :=
  if s.err ≠ none then .next s
  else
    match check s with
    | some f => .next (takeFault f w s)
    | none => .next (effect s)

end Sys2Proof.Machine
end

