-- ==== Sys2Proof/Machine/Operands.lean ====
section
/-! DEFINITION. The operand forms: the registers `ADDR` and `LEN`, sampled when the command starts (30_encoding.md rule R73), and
the range check on them (20_memory.md rule R59). ABSORBI's byte comes with the instruction (rule R72). -/

namespace Sys2Proof.Machine

/-- The operand `ADDR`, an unsigned integer used as it is (rules R33, R73). -/
def operandAddr (s : State) : Nat := s.addr.toNat

/-- The operand `LEN` (rules R34, R73). -/
def operandLen (s : State) : Nat := s.len.toNat

/-- `ADDR + extent > 2^32`, in unbounded integers (rule R59). -/
def outOfRange (addr extent : Nat) : Bool := decide (addr + extent > Config.memorySize)

end Sys2Proof.Machine
end

