-- ==== Sys2Proof/Machine/Flags.lean ====
section
/-! DEFINITION. The engine's only flags, `STATUS.SESS` and `STATUS.ERR` (10_state.md rules R30 to R32), the checks that decide
`ERR` (60_exceptions.md rules R171 to R174, R178), and the carry rule of the bit counter (41_streaming_accumulator.md rule R113). -/

namespace Sys2Proof.Machine

/-- The value of `SESS` in `STATUS` (rule R30); 3 never occurs (log 24). -/
def Session.value : Session → Nat
  | .NONE => 0
  | .OPEN => 1
  | .DONE => 2

/-- The fault codes of rule R170. -/
def FaultCode.value : FaultCode → Nat
  | .shortContainer => 1
  | .illegalCommand => 2
  | .noSession => 3
  | .badTail => 4
  | .rangeError => 5

/-- The value of `ERR` in `STATUS` (rule R30). -/
def errValue : Option FaultCode → Nat
  | none => 0
  | some f => f.value

/-- `STATUS`: `SESS` in bits 1:0, `ERR` in bits 7:4, the reserved bits 0 (rule R30). -/
def statusWord (s : State) : Word := BitVec.ofNat 32 (16 * errValue s.err + s.sess.value)

/-- The session check of ABSORBI (order 3 of rule R178; rule R172). -/
def checkSession (s : State) : Option FaultCode :=
  if s.sess = .OPEN then none else some .noSession

/-- The range check (order 6 of rule R178; rule R174). -/
def checkRange (extent : Nat) (s : State) : Option FaultCode :=
  if outOfRange (operandAddr s) extent then some .rangeError else none

/-- INIT has no check (41_streaming_accumulator.md rule R110). -/
def checkInit (_ : State) : Option FaultCode := none

/-- ABSORB: session, then range over `LEN` bytes (rules R116, R178). -/
def checkAbsorb (s : State) : Option FaultCode :=
  (checkSession s).or (checkRange (operandLen s) s)

/-- XFORM: session, then range over 64 bytes (rules R104, R178). -/
def checkXform (s : State) : Option FaultCode :=
  (checkSession s).or (checkRange 64 s)

/-- FINAL's own check: the buffer is empty and the tail is 0 to 63 bytes (rule R173). -/
def checkTail (s : State) : Option FaultCode :=
  if s.acc.fill ≠ 0 ∨ operandLen s > 63 then some .badTail else none

/-- FINAL: session, then tail, then range over `LEN` bytes (rules R130, R178). -/
def checkFinal (s : State) : Option FaultCode :=
  (checkSession s).or ((checkTail s).or (checkRange (operandLen s) s))

/-- The length check of DIGEST and SIGN (rule R171). -/
def checkLength (s : State) : Option FaultCode :=
  if operandLen s < 20 then some .shortContainer else none

/-- DIGEST and SIGN: length, then range over `LEN` bytes (rules R150, R152, R178). -/
def checkContainer (s : State) : Option FaultCode :=
  (checkLength s).or (checkRange (operandLen s) s)

/-- The low half after 8 is added (rule R113). -/
def countLow (old : Word) : Word := old + 8

/-- The high half: incremented exactly when the new low half is less than the old one, unsigned (rule R113). -/
def countHigh (old high : Word) : Word := if (countLow old).toNat < old.toNat then high + 1 else high

end Sys2Proof.Machine
end

