-- ==== Sys2Proof/Machine/Transform.lean ====
section
/-! DEFINITION. The Block Transform (40_block_transform.md rules R90 to R99, R105), its step fields (30_encoding.md rules R76, R77)
and the transform unit that performs it (10_state.md rules R26, R27). -/

namespace Sys2Proof.Machine

/-- `F_r(x, y, z)` of rules R94, R95, R97, R98, by round number 0 to 3. -/
def roundFn (r : Nat) (x y z : Word) : Word :=
  match r with
  | 0 => (x &&& y) ||| (~~~x &&& z)
  | 1 => (x &&& z) ||| (y &&& ~~~z)
  | 2 => x ^^^ y ^^^ z
  | _ => y ^^^ (x ||| ~~~z)

/-- The four rotation amounts `S_r[0..3]` of a round (rule R77). -/
def roundRotations (r : Nat) : List Nat :=
  match r with
  | 0 => [7, 12, 17, 22]
  | 1 => [5, 9, 14, 20]
  | 2 => [4, 11, 16, 23]
  | _ => [6, 10, 15, 21]

/-- The message-word order of a round, `k` for `j` = 0 to 15 (rule R77). -/
def roundOrder (r : Nat) : List Nat :=
  match r with
  | 0 => [0, 1, 2, 3, 4, 5, 6, 7, 8, 9, 10, 11, 12, 13, 14, 15]
  | 1 => [1, 6, 11, 0, 5, 10, 15, 4, 9, 14, 3, 8, 13, 2, 7, 12]
  | 2 => [5, 8, 11, 14, 1, 4, 7, 10, 13, 0, 3, 6, 9, 12, 15, 2]
  | _ => [0, 7, 14, 5, 12, 3, 10, 1, 8, 15, 6, 13, 4, 11, 2, 9]

/-- The step constants of round 1 (rule R105; the spec takes them from general knowledge, log 11). -/
def roundConstants1 : List Word :=
  [0xD76AA478, 0xE8C7B756, 0x242070DB, 0xC1BDCEEE, 0xF57C0FAF, 0x4787C62A, 0xA8304613, 0xFD469501,
    0x698098D8, 0x8B44F7AF, 0xFFFF5BB1, 0x895CD7BE, 0x6B901122, 0xFD987193, 0xA679438E, 0x49B40821]

/-- The step constants of round 2 (rule R105; the spec takes them from general knowledge, log 11). -/
def roundConstants2 : List Word :=
  [0xF61E2562, 0xC040B340, 0x265E5A51, 0xE9B6C7AA, 0xD62F105D, 0x02441453, 0xD8A1E681, 0xE7D3FBC8,
    0x21E1CDE6, 0xC33707D6, 0xF4D50D87, 0x455A14ED, 0xA9E3E905, 0xFCEFA3F8, 0x676F02D9, 0x8D2A4C8A]

/-- The step constants of round 3 (rule R105; the spec takes them from general knowledge, log 11). -/
def roundConstants3 : List Word :=
  [0xFFFA3942, 0x8771F681, 0x6D9D6122, 0xFDE5380C, 0xA4BEEA44, 0x4BDECFA9, 0xF6BB4B60, 0xBEBFBC70,
    0x289B7EC6, 0xEAA127FA, 0xD4EF3085, 0x04881D05, 0xD9D4D039, 0xE6DB99E5, 0x1FA27CF8, 0xC4AC5665]

/-- The step constants of round 4 (rule R105; the spec takes them from general knowledge, log 11). -/
def roundConstants4 : List Word :=
  [0xF4292244, 0x432AFF97, 0xAB9423A7, 0xFC93A039, 0x655B59C3, 0x8F0CCC92, 0xFFEFF47D, 0x85845DD1,
    0x6FA87E4F, 0xFE2CE6E0, 0xA3014314, 0x4E0811A1, 0xF7537E82, 0xBD3AF235, 0x2AD7D2BB, 0xEB86D391]

/-- The 64 step constants `T[i]` (rules R96, R105). -/
def stepConstants : List Word := roundConstants1 ++ roundConstants2 ++ roundConstants3 ++ roundConstants4

/-- The fields of a step: round, message-word index `k(i)`, rotation amount `s(i)`, constant `T[i]` (rules R76, R77). -/
structure StepRow where
  round : Nat
  k : Nat
  s : Nat
  t : Word
  deriving DecidableEq, Repr

/-- The fields of step `i`: `r = i[5:4]`, `j = i[3:0]`, `q = i[1:0]` (rules R76, R77, R105). -/
def stepRow (i : Nat) : StepRow :=
  { round := i / 16
    k := (roundOrder (i / 16)).getD (i % 16) 0
    s := (roundRotations (i / 16)).getD (i % 4) 0
    t := stepConstants.getD i 0 }

/-- `new = rotl32(a + F_r(b, c, d) + X[k] + T, s) + b` (rule R93). -/
def stepNew (row : StepRow) (u : TransformUnit) : Word :=
  rotl32 (u.a + roundFn row.round u.b u.c u.d + wordAt u.x row.k + row.t) row.s + u.b

/-- One step (rule R93): `(a, b, c, d) <- (d, new, b, c)`, `step <- step + 1`. -/
def TransformUnit.performStep (row : StepRow) (u : TransformUnit) : TransformUnit :=
  { u with a := u.d, b := stepNew row u, c := u.b, d := u.c, step := u.step + 1 }

/-- A transform starts (rules R91, R92; 10_state.md rule R27): registers from the state words, message words from the block,
`step <- 0`. -/
def TransformUnit.seed (h : HWords) (blk : Block) : TransformUnit :=
  { a := h[0], b := h[1], c := h[2], d := h[3], x := messageWords blk, step := 0, active := true }

/-- Steps 0 to 63 in order (rules R79, R99). Irreducible, so that no proof unfolds 64 steps by accident; the kernel still
evaluates it. -/
@[irreducible] def TransformUnit.performAll (u : TransformUnit) : TransformUnit :=
  (List.range 64).foldl (fun v i => v.performStep (stepRow i)) u

/-- The final addition, by name: `a` into word 0, `b` into word 1, `c` into word 2, `d` into word 3 (rule R99). -/
def addBack (h : HWords) (u : TransformUnit) : HWords :=
  #v[h[0] + u.a, h[1] + u.b, h[2] + u.c, h[3] + u.d]

/-- `Transform(H, B)` (rule R99). -/
def transform (h : HWords) (blk : Block) : HWords := addBack h (TransformUnit.seed h blk).performAll

/-- One step of the transform unit in the state: the meaning the 64 step rows share (rule R93). -/
def performStep (i : Nat) (s : State) : State := { s with unit := s.unit.performStep (stepRow i) }

/-- The end of a transform, when step 63 has been performed (10_state.md rule R27, rule R99): the final addition into `H`. -/
def finishTransform (s : State) : State :=
  { s with acc := { s.acc with h := addBack s.acc.h s.unit }, unit := { s.unit with active := false } }

/-- XFORM's effect: `H <- Transform(H, B)` with the block at `ADDR` (rule R104). Only `H` changes. -/
def xformEffect (s : State) : State :=
  { s with acc := { s.acc with h := transform s.acc.h (s.mem.block (operandAddr s)) } }

/-- `XFORM a` (rule R104). -/
def execXform (s : State) : Out := runCommand (commandWord 0x4 0) checkXform xformEffect s

end Sys2Proof.Machine
end

