-- ==== Sys2Proof/Machine/Streaming.lean ====
section
/-! DEFINITION. The Streaming Accumulator and the commands INIT, ABSORBI, ABSORB (41_streaming_accumulator.md). -/

namespace Sys2Proof.Machine

/-- The initial state words (10_state.md rule R21). -/
def initialH : HWords := #v[0x67452301, 0xEFCDAB89, 0x98BADCFE, 0x10325476]

/-- A fresh accumulator; `P` is not written (10_state.md rules R21, R40; rule R110). -/
def freshAccumulator (p : Block) : Accumulator := { h := initialH, p := p, c0 := 0, c1 := 0, fill := 0 }

/-- `absorb(b)` (rule R112): count 8 bits with the carry rule, store the byte at `fill`, advance `fill`; when it reaches 64,
transform `P` and return `fill` to 0. -/
def absorb (acc : Accumulator) (b : Byte) : Accumulator :=
  let counted : Accumulator :=
    { acc with c0 := countLow acc.c0, c1 := countHigh acc.c0 acc.c1, p := putByte acc.p acc.fill b }
  if acc.fill.toNat + 1 = 64 then
    { counted with h := transform acc.h counted.p, fill := 0 }
  else
    { counted with fill := acc.fill + 1 }

/-- `update(buffer)`: `absorb` on each byte of a slice, first byte first (rule R111). -/
def update (acc : Accumulator) (bytes : List Byte) : Accumulator := bytes.foldl absorb acc

/-- INIT's effect (rule R110). -/
def initEffect (s : State) : State := { s with acc := freshAccumulator s.acc.p, sess := .OPEN }

/-- `INIT` (rule R110). -/
def execInit (s : State) : Out := runCommand (commandWord 0x1 0) checkInit initEffect s

/-- ABSORBI's effect (rule R115). -/
def absorbiEffect (imm8 : Byte) (s : State) : State := { s with acc := update s.acc [imm8] }

/-- `ABSORBI b` (rule R115). -/
def execAbsorbi (imm8 : Byte) (s : State) : Out :=
  runCommand (commandWord 0x2 imm8) checkSession (absorbiEffect imm8) s

/-- ABSORB's effect: `update` over `M[ADDR .. ADDR + LEN − 1]` (rule R116). -/
def absorbEffect (s : State) : State :=
  { s with acc := update s.acc (s.mem.slice (operandAddr s) (operandLen s)) }

/-- `ABSORB a, n` (rule R116). -/
def execAbsorb (s : State) : Out := runCommand (commandWord 0x3 0) checkAbsorb absorbEffect s

end Sys2Proof.Machine
end

