-- ==== Sys2Proof/Machine/Finalization.lean ====
section
/-! DEFINITION. Finalization and the command FINAL (42_finalization.md). -/

namespace Sys2Proof.Machine

/-- The bit count `N = C[0] + 8·t` modulo 2^32, tail included (rule R131; the spec's decision D1, log 12). -/
def bitCount (c0 : Word) (t : Nat) : Word := c0 + BitVec.ofNat 32 (8 * t)

/-- The marker `Mk = (N >> 2) OR 1` (rule R133). -/
def marker (n : Word) : Word := (n >>> 2) ||| 1

/-- The padding sequence of `m ≥ 1` bytes: 0x80, then zeros (rule R134). -/
def padding (m : Nat) : List Byte := 0x80 :: List.replicate (m - 1) 0x00

/-- Byte `k` of `LE32(x)`. -/
def le32Byte (x : Word) (k : Nat) : Byte := (le32 x).getD k 0

/-- The synthetic last block of Case A: `N` in word 0, `Mk` in word 15, zeros between (rule R135). -/
def syntheticBlock (n : Word) : Block :=
  blockOf fun k => if k < 4 then le32Byte n k else if k < 60 then 0 else le32Byte (marker n) (k - 60)

/-- Case A, `56 ≤ t ≤ 63` (rule R135): the tail and its padding through `absorb`, then the synthetic block directly. -/
def caseA (acc : Accumulator) (tail : List Byte) (n : Word) : Accumulator :=
  let fed := update (update acc tail) (padding (64 - tail.length))
  { fed with h := transform fed.h (syntheticBlock n) }

/-- Case B's direct writes into `P`: padding from `t + 4` to 59, the marker in 60 to 63 (rules R134, R137). -/
def padBuffer (p : Block) (t : Nat) (n : Word) : Block :=
  blockOf fun k =>
    if k < t + 4 then byteAt p k
    else if k < 60 then (padding (56 - t)).getD (k - (t + 4)) 0
    else le32Byte (marker n) (k - 60)

/-- Case B, `0 ≤ t ≤ 55` (rule R137): the count, then the tail through `absorb`; padding and marker written directly into `P`;
one direct transform. -/
def caseB (acc : Accumulator) (tail : List Byte) (n : Word) : Accumulator :=
  let fed := update (update acc (le32 n)) tail
  let p := padBuffer fed.p tail.length n
  { fed with p := p, h := transform fed.h p }

/-- Finalization of a tail (rules R130 to R132): Case A when `t ≥ 56`, else Case B. -/
def finalize (acc : Accumulator) (tail : List Byte) : Accumulator :=
  if tail.length ≥ 56 then caseA acc tail (bitCount acc.c0 tail.length)
  else caseB acc tail (bitCount acc.c0 tail.length)

/-- FINAL's effect (rule R130). -/
def finalEffect (s : State) : State :=
  { s with acc := finalize s.acc (s.mem.slice (operandAddr s) (operandLen s)), sess := .DONE }

/-- `FINAL a, t` (rule R130). -/
def execFinal (s : State) : Out := runCommand (commandWord 0x5 0) checkFinal finalEffect s

end Sys2Proof.Machine
end

