-- ==== Sys2Proof/Machine/SignApply.lean ====
section
/-! DEFINITION. Sign / Apply: the commands DIGEST and SIGN (43_sign_apply.md). -/

namespace Sys2Proof.Machine

/-- `ComputeDigest(A, L)` (rule R151), for `L ≥ 20`: a fresh accumulator, the payload's complete blocks through `update`, then
finalization of the tail. Irreducible, so that no proof unfolds it by accident; the kernel still evaluates it. -/
@[irreducible] def computeDigest (m : Memory) (base length : Nat) (acc : Accumulator) : Accumulator :=
  let payload := length - 20
  let tail := payload % 64
  let full := payload - tail
  finalize (update (freshAccumulator acc.p) (m.slice (base + 20) full)) (m.slice (base + 20 + full) tail)

/-- DIGEST's effect (rule R150). -/
def digestEffect (s : State) : State :=
  { s with acc := computeDigest s.mem (operandAddr s) (operandLen s) s.acc, sess := .DONE }

/-- `DIGEST a, n` (rule R150). -/
def execDigest (s : State) : Out := runCommand (commandWord 0x6 0) checkContainer digestEffect s

/-- The write-back: the digest bytes to container offsets 4 to 19 (rule R153). -/
def writeBack (s : State) : State :=
  { s with mem := s.mem.writeBytes (operandAddr s + 4) (digestBytes s.acc.h) }

/-- SIGN's effect (rule R152). -/
def signEffect (s : State) : State := writeBack (digestEffect s)

/-- `SIGN a, n` (rule R152). -/
def execSign (s : State) : Out := runCommand (commandWord 0x7 0) checkContainer signEffect s

end Sys2Proof.Machine
end

