-- ==== Sys2Proof/Machine/Steps.lean ====
section
/-! DEFINITION. The meanings of the 64 step rows, STEP00 to STEP63 (30_encoding.md rule R79): each performs rule R93 with its own
row of the step table (rule R105). -/

namespace Sys2Proof.Machine

/-! ## Round 1 (40_block_transform.md rule R94) -/

def execStep00 (s : State) : Out := .next (performStep 0 s)

def execStep01 (s : State) : Out := .next (performStep 1 s)

def execStep02 (s : State) : Out := .next (performStep 2 s)

def execStep03 (s : State) : Out := .next (performStep 3 s)

def execStep04 (s : State) : Out := .next (performStep 4 s)

def execStep05 (s : State) : Out := .next (performStep 5 s)

def execStep06 (s : State) : Out := .next (performStep 6 s)

def execStep07 (s : State) : Out := .next (performStep 7 s)

def execStep08 (s : State) : Out := .next (performStep 8 s)

def execStep09 (s : State) : Out := .next (performStep 9 s)

def execStep10 (s : State) : Out := .next (performStep 10 s)

def execStep11 (s : State) : Out := .next (performStep 11 s)

def execStep12 (s : State) : Out := .next (performStep 12 s)

def execStep13 (s : State) : Out := .next (performStep 13 s)

def execStep14 (s : State) : Out := .next (performStep 14 s)

def execStep15 (s : State) : Out := .next (performStep 15 s)

/-! ## Round 2 (40_block_transform.md rule R95) -/

def execStep16 (s : State) : Out := .next (performStep 16 s)

def execStep17 (s : State) : Out := .next (performStep 17 s)

def execStep18 (s : State) : Out := .next (performStep 18 s)

def execStep19 (s : State) : Out := .next (performStep 19 s)

def execStep20 (s : State) : Out := .next (performStep 20 s)

def execStep21 (s : State) : Out := .next (performStep 21 s)

def execStep22 (s : State) : Out := .next (performStep 22 s)

def execStep23 (s : State) : Out := .next (performStep 23 s)

def execStep24 (s : State) : Out := .next (performStep 24 s)

def execStep25 (s : State) : Out := .next (performStep 25 s)

def execStep26 (s : State) : Out := .next (performStep 26 s)

def execStep27 (s : State) : Out := .next (performStep 27 s)

def execStep28 (s : State) : Out := .next (performStep 28 s)

def execStep29 (s : State) : Out := .next (performStep 29 s)

def execStep30 (s : State) : Out := .next (performStep 30 s)

def execStep31 (s : State) : Out := .next (performStep 31 s)

/-! ## Round 3 (40_block_transform.md rule R97) -/

def execStep32 (s : State) : Out := .next (performStep 32 s)

def execStep33 (s : State) : Out := .next (performStep 33 s)

def execStep34 (s : State) : Out := .next (performStep 34 s)

def execStep35 (s : State) : Out := .next (performStep 35 s)

def execStep36 (s : State) : Out := .next (performStep 36 s)

def execStep37 (s : State) : Out := .next (performStep 37 s)

def execStep38 (s : State) : Out := .next (performStep 38 s)

def execStep39 (s : State) : Out := .next (performStep 39 s)

def execStep40 (s : State) : Out := .next (performStep 40 s)

def execStep41 (s : State) : Out := .next (performStep 41 s)

def execStep42 (s : State) : Out := .next (performStep 42 s)

def execStep43 (s : State) : Out := .next (performStep 43 s)

def execStep44 (s : State) : Out := .next (performStep 44 s)

def execStep45 (s : State) : Out := .next (performStep 45 s)

def execStep46 (s : State) : Out := .next (performStep 46 s)

def execStep47 (s : State) : Out := .next (performStep 47 s)

/-! ## Round 4 (40_block_transform.md rule R98) -/

def execStep48 (s : State) : Out := .next (performStep 48 s)

def execStep49 (s : State) : Out := .next (performStep 49 s)

def execStep50 (s : State) : Out := .next (performStep 50 s)

def execStep51 (s : State) : Out := .next (performStep 51 s)

def execStep52 (s : State) : Out := .next (performStep 52 s)

def execStep53 (s : State) : Out := .next (performStep 53 s)

def execStep54 (s : State) : Out := .next (performStep 54 s)

def execStep55 (s : State) : Out := .next (performStep 55 s)

def execStep56 (s : State) : Out := .next (performStep 56 s)

def execStep57 (s : State) : Out := .next (performStep 57 s)

def execStep58 (s : State) : Out := .next (performStep 58 s)

def execStep59 (s : State) : Out := .next (performStep 59 s)

def execStep60 (s : State) : Out := .next (performStep 60 s)

def execStep61 (s : State) : Out := .next (performStep 61 s)

def execStep62 (s : State) : Out := .next (performStep 62 s)

def execStep63 (s : State) : Out := .next (performStep 63 s)

end Sys2Proof.Machine
end

