-- ==== Sys2Proof/Machine/HostPort.lean ====
section
/-! DEFINITION. The engine's outside: the `CMD` write, the host register file (10_state.md rules R28 to R37), the host's own memory
accesses (20_memory.md rules R51, R64), reset during a command (70_reset_and_hazards.md rule R200), and the step sequencer. -/

namespace Sys2Proof.Machine

/-- The byte offset of a host register (rule R28). -/
def HostReg.offset : HostReg → Nat
  | .CMD => 0x00
  | .STATUS => 0x04
  | .ADDR => 0x08
  | .LEN => 0x0C
  | .H0 => 0x10
  | .H1 => 0x14
  | .H2 => 0x18
  | .H3 => 0x1C
  | .C0 => 0x20
  | .C1 => 0x24
  | .FILL => 0x28
  | .ECMD => 0x2C

/-- The register an access of `size` bytes at `offset` reaches: none where rule R37 defines no access. -/
def regAt (offset size : Nat) : Option HostReg :=
  if size = 4 then
    match offset with
    | 0x00 => some .CMD
    | 0x04 => some .STATUS
    | 0x08 => some .ADDR
    | 0x0C => some .LEN
    | 0x10 => some .H0
    | 0x14 => some .H1
    | 0x18 => some .H2
    | 0x1C => some .H3
    | 0x20 => some .C0
    | 0x24 => some .C1
    | 0x28 => some .FILL
    | 0x2C => some .ECMD
    | _ => none
  else none

/-- What a register shows (rules R29, R30, R33 to R36). -/
def regView (r : HostReg) (s : State) : Word :=
  match r with
  | .CMD => 0
  | .STATUS => statusWord s
  | .ADDR => s.addr
  | .LEN => s.len
  | .H0 => s.acc.h[0]
  | .H1 => s.acc.h[1]
  | .H2 => s.acc.h[2]
  | .H3 => s.acc.h[3]
  | .C0 => s.acc.c0
  | .C1 => s.acc.c1
  | .FILL => s.acc.fill.setWidth 32
  | .ECMD => s.ecmd

/-- The registers whose value is unspecified until the first accumulator is created (rules R35, R39), with the width of the free
draw a read of them is: 6 bits for `FILL`, 32 for the others. None for the other registers. -/
def drawWidth (r : HostReg) : Option Nat :=
  match r with
  | .H0 | .H1 | .H2 | .H3 | .C0 | .C1 => some 32
  | .FILL => some 6
  | .CMD | .STATUS | .ADDR | .LEN | .ECMD => none

/-- Free draw `n`, reduced to `width` bits (rule R39, item U3; log 1). -/
def freeDraw (n width : Nat) : Word := BitVec.ofNat 32 ((Config.freeWord n).toNat % 2 ^ width)

/-- A host read returns `v`. -/
def returnRead (v : Word) (s : State) : State := { s with reads := v :: s.reads }

/-- A host read of a register (rules R35, R37, R39): a free draw while no accumulator has been created, else what it shows. -/
def readReg (r : HostReg) (s : State) : State :=
  match s.sess, drawWidth r with
  | .NONE, some width => returnRead (freeDraw s.draws width) { s with draws := s.draws + 1 }
  | _, _ => returnRead (regView r s) s

/-- A `CMD` write of `w` (rule R29; 60_exceptions.md rules R175, R177, R178; 30_encoding.md rule R75): discarded undecoded by a
halted engine; an illegal word raises `IllegalCommand`; a legal one runs. -/
def writeCommand (w : Word) (s : State) : Out :=
  if s.err ≠ none then .next s
  else
    match decodeCommand w with
    | .error _ => .next (takeFault .illegalCommand w s)
    | .ok i => exec i s

/-- A host write to a register (rules R29, R33, R34, R37): a write to a read-only register is discarded. -/
def writeReg (r : HostReg) (v : Word) (s : State) : Out :=
  match r with
  | .CMD => writeCommand v s
  | .ADDR => .next { s with addr := v }
  | .LEN => .next { s with len := v }
  | .STATUS | .H0 | .H1 | .H2 | .H3 | .C0 | .C1 | .FILL | .ECMD => .next s

/-- Byte writes of which each was made or not, freely and independently (item U6; log 13): free choice `draw + m` decides byte
`m`. Irreducible, as `Memory.writeBytes`. -/
@[irreducible] def writeSome : Memory → Nat → Nat → List Byte → Memory
  | m, _, _, [] => m
  | m, draw, a, b :: bs =>
    writeSome (if Config.freeBit draw then m.write a b else m) (draw + 1) (a + 1) bs

/-- What an abandoned command leaves (70_reset_and_hazards.md rule R200): some of SIGN's sixteen writes, nothing of any other. -/
def abandonCommand (w : Word) (s : State) : State :=
  if s.err = none ∧ decodeCommand w = .ok .sign ∧ checkContainer s = none then
    { s with
      mem := writeSome s.mem s.draws (operandAddr s + 4) (digestBytes (digestEffect s).acc.h)
      draws := s.draws + 16 }
  else s

/-- One access of the outside world. -/
def hostAccess (a : HostAccess) (s : State) : Out :=
  match a with
  | .write offset size value =>
    match regAt offset size with
    | none => .refused (.hostAccessOutsideSpec offset size)
    | some r => writeReg r value s
  | .read offset size =>
    match regAt offset size with
    | none => .refused (.hostAccessOutsideSpec offset size)
    | some r => .next (readReg r s)
  | .memWrite addr value =>
    if addr < Config.memorySize then .next { s with mem := s.mem.write addr value } else .fault (.noSuchAddress addr)
  | .memRead addr =>
    if addr < Config.memorySize then .next (returnRead ((s.mem.read addr).setWidth 32) s) else .fault (.noSuchAddress addr)
  | .reset => .next (hardwareReset s)
  | .commandThenReset w => .next (hardwareReset (abandonCommand w s))

/-- What ends a step of the sequencer: after step 63 the transform ends (10_state.md rule R27, rule R99). -/
def endOfStep (i : BitVec 6) (t : State) : State := if i = 63 then finishTransform t else t

/-- The sequencer performs the step its counter selects (10_state.md rule R27; 30_encoding.md rule R76). -/
def sequencerStep (s : State) : Out :=
  match exec (decodeStep s.unit.step) s with
  | .next t => .next (endOfStep s.unit.step t)
  | .fault f => .fault f
  | .refused r => .refused r

/-- The next host access is taken; with none the engine is idle and does nothing (70_reset_and_hazards.md rule R201). -/
def hostStep (s : State) : Out :=
  match s.host with
  | [] => .next s
  | a :: rest => hostAccess a { s with host := rest }

/-- A transform of the block `blk` is started step by step (rules R91, R92): the transform unit is seeded (log 3). -/
def beginTransform (blk : Block) (s : State) : State := { s with unit := TransformUnit.seed s.acc.h blk }

/-- The code `c` made the next instruction: a command word becomes the next host access, a write to `CMD`; a step code becomes
the value of the step counter of a transform in progress (log 5). -/
def placeCode (c : Code) (s : State) : State :=
  match c with
  | .command w => { s with unit := { s.unit with active := false }, host := .write 0x00 4 w :: s.host }
  | .step i => { s with unit := { s.unit with step := i, active := true } }

end Sys2Proof.Machine
end

