-- ==== Sys2Proof/Machine/Assembler.lean ====
section
/-! DEFINITION. The assembler lines and pseudo-instructions of 30_encoding.md rules R81 to R83: their text, and their expansion into
host accesses. No line is an instruction; a program is the list of accesses its lines expand to. -/

namespace Sys2Proof.Machine

/-- A line (rules R81, R83). Numbers are as written; what they may be is `Line.wf`. -/
inductive Line where
  | init
  | absorbi (b : Nat)
  | absorb (a n : Nat)
  | xform (a : Nat)
  | final (a t : Nat)
  | digest (a n : Nat)
  | sign (a n : Nat)
  /-- `ABSORBS "text"`: the ASCII codes of the text. -/
  | absorbs (text : List Nat)
  /-- `RD reg`. -/
  | rd (r : HostReg)
  /-- `HASH a, p`. -/
  | hash (a p : Nat)
  /-- `RESET`. -/
  | reset
  deriving DecidableEq, Repr

/-- The numbers a line may hold: a byte is 0 to 255, an operand register holds 32 bits, an ASCII code is below 128, `RD` names a
readable register (rules R33, R34, R81, R83). -/
def Line.wf : Line → Bool
  | .init | .reset => true
  | .absorbi b => decide (b < 256)
  | .absorb a n | .final a n | .digest a n | .sign a n => decide (a < 2 ^ 32 ∧ n < 2 ^ 32)
  | .xform a => decide (a < 2 ^ 32)
  | .absorbs text => text.all fun c => decide (c < 128)
  | .rd r => decide (r ≠ .CMD)
  | .hash a p => decide (p < 2 ^ 32 ∧ a + (p - p % 64) < 2 ^ 32)

/-- `WR offset, value` (rule R82). -/
def wr (r : HostReg) (value : Nat) : HostAccess := .write r.offset 4 (BitVec.ofNat 32 value)

/-- The accesses a line stands for (rules R82, R83). -/
def Line.expand : Line → List HostAccess
  | .init => [wr .CMD 0x1]
  | .absorbi b => [wr .CMD (0x2 + 256 * b)]
  | .absorb a n => [wr .ADDR a, wr .LEN n, wr .CMD 0x3]
  | .xform a => [wr .ADDR a, wr .CMD 0x4]
  | .final a t => [wr .ADDR a, wr .LEN t, wr .CMD 0x5]
  | .digest a n => [wr .ADDR a, wr .LEN n, wr .CMD 0x6]
  | .sign a n => [wr .ADDR a, wr .LEN n, wr .CMD 0x7]
  | .absorbs text => text.map fun b => wr .CMD (0x2 + 256 * b)
  | .rd r => [.read r.offset 4]
  | .hash a p =>
    [wr .CMD 0x1, wr .ADDR a, wr .LEN (p - p % 64), wr .CMD 0x3, wr .ADDR (a + (p - p % 64)), wr .LEN (p % 64), wr .CMD 0x5]
  | .reset => [.reset]

/-! ## The text of a line (rules R81, R83; spaces and quotes as log 22 says) -/

/-- What stands before a comment; a `;` between quotes starts none. -/
def beforeComment : Bool → List Char → List Char
  | _, [] => []
  | quoted, c :: cs =>
    if c = ';' ∧ quoted = false then [] else c :: beforeComment (if c = '"' then !quoted else quoted) cs

/-- Without the spaces at both ends. -/
def trimmed (cs : List Char) : List Char := ((cs.dropWhile (· = ' ')).reverse.dropWhile (· = ' ')).reverse

/-- The operands between commas. -/
def operands : List Char → List (List Char)
  | [] => [[]]
  | c :: cs =>
    match operands cs with
    | [] => [[c]]
    | w :: ws => if c = ',' then [] :: w :: ws else (c :: w) :: ws

/-- The value of a digit. -/
def digit (c : Char) : Option Nat :=
  if '0'.toNat ≤ c.toNat ∧ c.toNat ≤ '9'.toNat then some (c.toNat - '0'.toNat)
  else if 'A'.toNat ≤ c.toNat ∧ c.toNat ≤ 'F'.toNat then some (c.toNat - 'A'.toNat + 10)
  else if 'a'.toNat ≤ c.toNat ∧ c.toNat ≤ 'f'.toNat then some (c.toNat - 'a'.toNat + 10)
  else none

/-- The digits of a number in a base, most significant first. -/
def digits (base : Nat) : Nat → List Char → Option Nat
  | acc, [] => some acc
  | acc, c :: cs =>
    match digit c with
    | some d => if d < base then digits base (base * acc + d) cs else none
    | none => none

/-- A number: decimal, or hexadecimal after `0x` (rule R81). -/
def number (cs : List Char) : Option Nat :=
  match cs with
  | [] => none
  | '0' :: 'x' :: ds => if ds = [] then none else digits 16 0 ds
  | ds => digits 10 0 ds

/-- The text between two quotes (rule R83). DESIGN CHOICE (log 22): the rule gives no form for a quote character inside the text; a
line with one is no line. -/
def quotedText (cs : List Char) : Option (List Char) :=
  match cs with
  | '"' :: ds =>
    match ds.reverse with
    | '"' :: es => if es.contains '"' then none else some es.reverse
    | _ => none
  | _ => none

/-- A register by its name (rule R28). -/
def regNamed (cs : List Char) : Option HostReg :=
  (([("CMD", .CMD), ("STATUS", .STATUS), ("ADDR", .ADDR), ("LEN", .LEN), ("H0", .H0), ("H1", .H1), ("H2", .H2), ("H3", .H3),
    ("C0", .C0), ("C1", .C1), ("FILL", .FILL), ("ECMD", .ECMD)] : List (String × HostReg)).find?
      fun p => p.1.toList = cs).map Prod.snd

/-- A line without its comment, as mnemonic and operands; none where rules R81 and R83 have no such line. -/
def lineOf (mnemonic : List Char) (rest : List Char) : Option Line :=
  if mnemonic = "ABSORBS".toList then (quotedText rest).map fun t => .absorbs (t.map Char.toNat)
  else if mnemonic = "RD".toList then (regNamed rest).map .rd
  else
    match if rest = [] then some [] else ((operands rest).map fun w => number (trimmed w)).mapM id with
    | some [] => if mnemonic = "INIT".toList then some .init else if mnemonic = "RESET".toList then some .reset else none
    | some [a] =>
      if mnemonic = "ABSORBI".toList then some (.absorbi a) else if mnemonic = "XFORM".toList then some (.xform a) else none
    | some [a, n] =>
      if mnemonic = "ABSORB".toList then some (.absorb a n)
      else if mnemonic = "FINAL".toList then some (.final a n)
      else if mnemonic = "DIGEST".toList then some (.digest a n)
      else if mnemonic = "SIGN".toList then some (.sign a n)
      else if mnemonic = "HASH".toList then some (.hash a n)
      else none
    | _ => none

/-- A line of text: no line for a blank or a comment, one line otherwise; none where it is no well-formed line. -/
def parseLine (cs : List Char) : Option (List Line) :=
  let text := trimmed (beforeComment false cs)
  if text = [] then some []
  else
    match lineOf (text.takeWhile (· ≠ ' ')) (trimmed (text.dropWhile (· ≠ ' '))) with
    | some l => if l.wf then some [l] else none
    | none => none

/-- A program's accesses are added to those the host has still to make (rule R82; log 5). -/
def State.withProgram (s : State) (lines : List Line) : State := { s with host := s.host ++ lines.flatMap Line.expand }

end Sys2Proof.Machine
end

