-- ==== Sys2Proof/Machine/Step.lean ====
section
/-! DEFINITION. One step of the machine. -/

namespace Sys2Proof.Machine

/-- One step: a transform in progress performs the step its counter selects, else the next host access is taken. -/
def step (s : State) : Host.Outcome State Fault Refusal :=
  if s.unit.active then sequencerStep s else hostStep s

/-- `s` with the instruction of a table word made the one the next step runs (log 5, log 23). -/
def State.withFetchWord (s : State) (nbits w : Nat) : State :=
  match tableCode nbits w with
  | none => s
  | some c => placeCode c s

end Sys2Proof.Machine
end

