-- ==== Sys2Proof/Machine/Reference.lean ====
section
/-! DEFINITION. Second forms of the engine's function that the spec gives beside the procedures: the transform without register
renaming (40_block_transform.md rule R100), and the digest as the chain of the blocks the transform sees (rules R102, R135, R137,
R151). No meaning calls them; statements compare the machine with them. -/

namespace Sys2Proof.Machine

/-- Step `i` with the registers keeping their names (rule R100): `a`, `d`, `c`, `b` are written in turn. -/
def unrolledStep (i : Nat) (u : TransformUnit) : TransformUnit :=
  let row := stepRow i
  let next (p q r v : Word) : Word := q + rotl32 (p + roundFn row.round q r v + wordAt u.x row.k + row.t) row.s
  match i % 4 with
  | 0 => { u with a := next u.a u.b u.c u.d, step := u.step + 1 }
  | 1 => { u with d := next u.d u.a u.b u.c, step := u.step + 1 }
  | 2 => { u with c := next u.c u.d u.a u.b, step := u.step + 1 }
  | _ => { u with b := next u.b u.c u.d u.a, step := u.step + 1 }

/-- The transform in the unrolled form (rule R100). -/
def unrolledTransform (h : HWords) (blk : Block) : HWords :=
  addBack h ((List.range 64).foldl (fun u i => unrolledStep i u) (TransformUnit.seed h blk))

/-- Complete block `i` of a payload. -/
def payloadBlock (payload : List Byte) (i : Nat) : Block := blockOf fun k => payload.getD (64 * i + k) 0

/-- The first of Case A's two last blocks, tail, 0x80, zeros (rule R135). -/
def caseABlock (tail : List Byte) : Block :=
  blockOf fun k => if k < tail.length then tail.getD k 0 else if k = tail.length then 0x80 else 0

/-- Case B's block: count, tail, 0x80, zeros, marker, by byte offset (the table of rule R137). -/
def caseBBlock (tail : List Byte) (n : Word) : Block :=
  blockOf fun k =>
    if k < 4 then le32Byte n k
    else if k < tail.length + 4 then tail.getD (k - 4) 0
    else if k = tail.length + 4 then 0x80
    else if k < 60 then 0
    else le32Byte (marker n) (k - 60)

/-- The last block or two for a tail and a bit count (rules R132, R135, R137). -/
def lastBlocks (tail : List Byte) (n : Word) : List Block :=
  if tail.length ≥ 56 then [caseABlock tail, syntheticBlock n] else [caseBBlock tail n]

/-- Every block the transform sees for a payload, in order (rules R102, R151). -/
def payloadBlocks (payload : List Byte) : List Block :=
  (List.range (payload.length / 64)).map (payloadBlock payload) ++
    lastBlocks (payload.drop (64 * (payload.length / 64))) (BitVec.ofNat 32 (8 * payload.length))

/-- The digest words of a payload as a chain of transforms from the initial words. -/
def referenceDigest (payload : List Byte) : HWords := (payloadBlocks payload).foldl transform initialH

end Sys2Proof.Machine
end

