-- ==== Sys2Proof/Safety.lean ====
section
/-! DEFINITION. The terms of the claims: the invariant, what the outside can observe (70_reset_and_hazards.md rule R214), the session
transitions (10_state.md rule R31), and states that differ only in what no command reads (rule R43). -/

namespace Sys2Proof.Machine

/-- The invariants of the accumulator (10_state.md rule R25): the count is a multiple of 8, and `fill` follows it. -/
abbrev Accumulator.wf (acc : Accumulator) : Prop :=
  acc.c0.toNat % 8 = 0 ∧ acc.fill.toNat = acc.c0.toNat / 8 % 64

/-- The 64-bit count `C[0] + 2^32 · C[1]` (10_state.md rule R23). -/
def Accumulator.count (acc : Accumulator) : Nat := acc.c0.toNat + 2 ^ 32 * acc.c1.toNat

/-- The machine's invariant: memory in canonical form, the accumulator's invariants once one exists, and `ECMD` 0 until a fault. -/
abbrev State.Inv (s : State) : Prop :=
  s.mem.wf ∧ (s.sess ≠ .NONE → s.acc.wf) ∧ (s.err = none → s.ecmd = 0)

/-- The twelve host registers in offset order (rule R28). -/
def hostRegs : List HostReg := [.CMD, .STATUS, .ADDR, .LEN, .H0, .H1, .H2, .H3, .C0, .C1, .FILL, .ECMD]

/-- What a host read of a register would return: none where it is a free draw (rules R35, R39). -/
def readable (r : HostReg) (s : State) : Option Word :=
  if s.sess = .NONE ∧ drawWidth r ≠ none then none else some (regView r s)

/-- The observable end state of a run: the twelve registers as a host read would return them, and container memory (rule R214). -/
structure Observation where
  regs : List (Option Word)
  mem : Memory
  deriving DecidableEq, Repr

def observe (s : State) : Observation := { regs := hostRegs.map fun r => readable r s, mem := s.mem }

/-- A run is faulted exactly when `ERR ≠ 0` at its end (rule R214). -/
def faulted (s : State) : Bool := s.err.isSome

/-- Is the next thing the outside does a reset, between commands or during one? -/
def resetsNext (s : State) : Bool :=
  match s.host with
  | .reset :: _ | .commandThenReset _ :: _ => true
  | _ => false

/-- What `SESS` may become when a command completes without a fault (the table of rule R31). -/
def sessionAfter (i : Instr) (before : Session) : Session :=
  match i with
  | .init => .OPEN
  | .final | .digest | .sign => .DONE
  | _ => before

/-- The bytes a command would access, `extent` of rule R174; none where a command accesses no memory. -/
def extentOf (i : Instr) (s : State) : Option Nat :=
  match i with
  | .absorb | .final | .digest | .sign => some s.len.toNat
  | .xform => some 64
  | _ => none

/-- Does the command need an open session (rule R172)? -/
def needsSession (i : Instr) : Bool :=
  match i with
  | .absorbi _ | .absorb | .xform | .final => true
  | _ => false

/-- The first line of orders 3 to 6 of rule R178 that applies to a legal command. -/
def firstFault (i : Instr) (s : State) : Option FaultCode :=
  if needsSession i ∧ s.sess ≠ .OPEN then some .noSession
  else if i = .final ∧ (s.acc.fill ≠ 0 ∨ 63 < s.len.toNat) then some .badTail
  else if (i = .digest ∨ i = .sign) ∧ s.len.toNat < 20 then some .shortContainer
  else if (extentOf i s).any (fun extent => decide (2 ^ 32 < s.addr.toNat + extent)) then some .rangeError
  else none

/-- The first `n` bytes of two blocks agree. -/
def agreeBelow (n : Nat) (p q : Block) : Prop := ∀ k, k < n → byteAt p k = byteAt q k

/-- Two states that differ at most in what no command reads (rule R43): bytes of `P` at `fill` and above, and the whole
accumulator while none has been created. -/
structure SameButStale (s t : State) : Prop where
  sess : s.sess = t.sess
  err : s.err = t.err
  ecmd : s.ecmd = t.ecmd
  addr : s.addr = t.addr
  len : s.len = t.len
  unit : s.unit = t.unit
  mem : s.mem = t.mem
  host : s.host = t.host
  reads : s.reads = t.reads
  draws : s.draws = t.draws
  acc : s.sess ≠ .NONE →
    s.acc.h = t.acc.h ∧ s.acc.c0 = t.acc.c0 ∧ s.acc.c1 = t.acc.c1 ∧ s.acc.fill = t.acc.fill ∧
      agreeBelow s.acc.fill.toNat s.acc.p t.acc.p

/-- Two outcomes agree up to stale contents. -/
def outcomesAgree : Out → Out → Prop
  | .next s, .next t => SameButStale s t
  | .fault f, .fault g => f = g
  | .refused r, .refused q => r = q
  | _, _ => False

end Sys2Proof.Machine
end

