-- ==== Sys2Proof/Certificates/Slice0/Obligations.lean ====
section
/-! DEFINITION. The statements for the provers, from the numbered rules of spec/. Where one gives the next state of a command in
full, it says as well that the transform unit stays as it was: that part is the model's (log 3). -/

open Sys2Proof Sys2Proof.Machine

/-! ## Encoding (30_encoding.md) -/

/-- Words written out from rules R71, R72 and R76, and illegal words of rule R74, decode as the rules say. -/
def Obligations.WordsOfTheSpecDecode : Prop :=
  decode (.command 0x00000001) = .ok .init ∧
  decode (.command 0x00006102) = .ok (.absorbi 0x61) ∧
  decode (.command 0x0000FF02) = .ok (.absorbi 0xFF) ∧
  decode (.command 0x00000003) = .ok .absorb ∧
  decode (.command 0x00000004) = .ok .xform ∧
  decode (.command 0x00000005) = .ok .final ∧
  decode (.command 0x00000006) = .ok .digest ∧
  decode (.command 0x00000007) = .ok .sign ∧
  decode (.step 0b000000) = .ok .step00 ∧
  decode (.step 0b010001) = .ok .step17 ∧
  decode (.step 0b101010) = .ok .step42 ∧
  decode (.step 0b111111) = .ok .step63 ∧
  decode (.command 0x00000000) = .error .opcode ∧
  decode (.command 0x00000008) = .error .opcode ∧
  decode (.command 0x00000011) = .error .reservedBits ∧
  decode (.command 0x00010002) = .error .reservedBits ∧
  decode (.command 0x00000101) = .error .immediate

/-- Rule R71: a word encodes a command exactly when `(w AND mask) = match`. -/
def Obligations.CommandsDecodeByMaskAndMatch : Prop :=
  ∀ w : Word,
    (decodeCommand w = .ok .init ↔ w &&& 0xFFFFFFFF = 0x00000001) ∧
    (∀ b, decodeCommand w = .ok (.absorbi b) ↔ w &&& 0xFFFF00FF = 0x00000002 ∧ b = w.extractLsb' 8 8) ∧
    (decodeCommand w = .ok .absorb ↔ w &&& 0xFFFFFFFF = 0x00000003) ∧
    (decodeCommand w = .ok .xform ↔ w &&& 0xFFFFFFFF = 0x00000004) ∧
    (decodeCommand w = .ok .final ↔ w &&& 0xFFFFFFFF = 0x00000005) ∧
    (decodeCommand w = .ok .digest ↔ w &&& 0xFFFFFFFF = 0x00000006) ∧
    (decodeCommand w = .ok .sign ↔ w &&& 0xFFFFFFFF = 0x00000007)

/-- Rules R74 and R175: a word is no command exactly when its opcode is 0 or 8 to 15, a reserved bit is set, or `imm8` is set
outside ABSORBI; and writing such a word raises `IllegalCommand`. -/
def Obligations.IllegalWordsRaiseIllegalCommand : Prop :=
  ∀ w : Word,
    let illegal : Prop := (w.extractLsb' 0 4).toNat = 0 ∨ 8 ≤ (w.extractLsb' 0 4).toNat ∨ w.extractLsb' 4 4 ≠ 0 ∨
      w.extractLsb' 16 16 ≠ 0 ∨ (w.extractLsb' 8 8 ≠ 0 ∧ (w.extractLsb' 0 4).toNat ≠ 2)
    (illegal ↔ ∀ i, decodeCommand w ≠ .ok i) ∧
    ∀ s : State, s.err = none → illegal →
      writeCommand w s = .next { s with err := some .illegalCommand, ecmd := w }

/-- Rules R70 to R72, R76, R79: every instruction, with every immediate, is what its code decodes to. -/
def Obligations.DecodeOfEncodeIsTheInstruction : Prop :=
  ∀ i : Instr, decode (encode i) = .ok i

/-- Rules R74, R79: each legal code has one meaning, and the encoder gives that code back; no bit of it is dropped. -/
def Obligations.EncodeOfDecodeIsTheCode : Prop :=
  ∀ (c : Code) (i : Instr), decode c = .ok i → encode i = c

/-- Rule R82: the word each assembler line writes to `CMD` is the command it names, after its operands. -/
def Obligations.AssemblerLinesWriteTheirCommands : Prop :=
  (∀ b, b < 256 → ∃ w, (Line.absorbi b).expand = [.write 0x00 4 w] ∧ decodeCommand w = .ok (.absorbi (BitVec.ofNat 8 b))) ∧
  (∃ w, Line.init.expand = [.write 0x00 4 w] ∧ decodeCommand w = .ok .init) ∧
  (∀ a n, a < 2 ^ 32 → n < 2 ^ 32 →
    ∀ p ∈ ([(.absorb a n, .absorb), (.final a n, .final), (.digest a n, .digest), (.sign a n, .sign)] : List (Line × Instr)),
      ∃ va vn w, p.1.expand = [.write 0x08 4 va, .write 0x0C 4 vn, .write 0x00 4 w] ∧
        va.toNat = a ∧ vn.toNat = n ∧ decodeCommand w = .ok p.2) ∧
  (∀ a, a < 2 ^ 32 → ∃ va w, (Line.xform a).expand = [.write 0x08 4 va, .write 0x00 4 w] ∧
    va.toNat = a ∧ decodeCommand w = .ok .xform)

/-! ## The steps and the Block Transform (40_block_transform.md) -/

/-- Rules R93 and R94, with the rows of R105 written out: message word, rotation, constant. Everything but the transform
unit stays. The constants are the spec's from general knowledge (log 11). That the step does so in every state, whatever the counter
holds and whether or not a transform is in progress, is the model's choice (log 21). -/
def Obligations.RoundOneStepsPerformTheirRows : Prop :=
  ∀ row ∈ ([
      (.step00, 0, 7, 0xD76AA478), (.step01, 1, 12, 0xE8C7B756), (.step02, 2, 17, 0x242070DB), (.step03, 3, 22, 0xC1BDCEEE),
      (.step04, 4, 7, 0xF57C0FAF), (.step05, 5, 12, 0x4787C62A), (.step06, 6, 17, 0xA8304613), (.step07, 7, 22, 0xFD469501),
      (.step08, 8, 7, 0x698098D8), (.step09, 9, 12, 0x8B44F7AF), (.step10, 10, 17, 0xFFFF5BB1), (.step11, 11, 22, 0x895CD7BE),
      (.step12, 12, 7, 0x6B901122), (.step13, 13, 12, 0xFD987193), (.step14, 14, 17, 0xA679438E), (.step15, 15, 22, 0x49B40821)] : List (Instr × Nat × Nat × Word)),
    ∀ s : State, exec row.1 s = .next { s with unit := { s.unit with
      a := s.unit.d
      b := rotl32 (s.unit.a + ((s.unit.b &&& s.unit.c) ||| (~~~s.unit.b &&& s.unit.d)) + wordAt s.unit.x row.2.1 + row.2.2.2) row.2.2.1 + s.unit.b
      c := s.unit.b
      d := s.unit.c
      step := s.unit.step + 1 } }

/-- Rules R93 and R95, with the rows of R105 written out: message word, rotation, constant. Everything but the transform
unit stays. The constants are the spec's from general knowledge (log 11). That the step does so in every state, whatever the counter
holds and whether or not a transform is in progress, is the model's choice (log 21). -/
def Obligations.RoundTwoStepsPerformTheirRows : Prop :=
  ∀ row ∈ ([
      (.step16, 1, 5, 0xF61E2562), (.step17, 6, 9, 0xC040B340), (.step18, 11, 14, 0x265E5A51), (.step19, 0, 20, 0xE9B6C7AA),
      (.step20, 5, 5, 0xD62F105D), (.step21, 10, 9, 0x02441453), (.step22, 15, 14, 0xD8A1E681), (.step23, 4, 20, 0xE7D3FBC8),
      (.step24, 9, 5, 0x21E1CDE6), (.step25, 14, 9, 0xC33707D6), (.step26, 3, 14, 0xF4D50D87), (.step27, 8, 20, 0x455A14ED),
      (.step28, 13, 5, 0xA9E3E905), (.step29, 2, 9, 0xFCEFA3F8), (.step30, 7, 14, 0x676F02D9), (.step31, 12, 20, 0x8D2A4C8A)] : List (Instr × Nat × Nat × Word)),
    ∀ s : State, exec row.1 s = .next { s with unit := { s.unit with
      a := s.unit.d
      b := rotl32 (s.unit.a + ((s.unit.b &&& s.unit.d) ||| (s.unit.c &&& ~~~s.unit.d)) + wordAt s.unit.x row.2.1 + row.2.2.2) row.2.2.1 + s.unit.b
      c := s.unit.b
      d := s.unit.c
      step := s.unit.step + 1 } }

/-- Rules R93 and R97, with the rows of R105 written out: message word, rotation, constant. Everything but the transform
unit stays. The constants are the spec's from general knowledge (log 11). That the step does so in every state, whatever the counter
holds and whether or not a transform is in progress, is the model's choice (log 21). -/
def Obligations.RoundThreeStepsPerformTheirRows : Prop :=
  ∀ row ∈ ([
      (.step32, 5, 4, 0xFFFA3942), (.step33, 8, 11, 0x8771F681), (.step34, 11, 16, 0x6D9D6122), (.step35, 14, 23, 0xFDE5380C),
      (.step36, 1, 4, 0xA4BEEA44), (.step37, 4, 11, 0x4BDECFA9), (.step38, 7, 16, 0xF6BB4B60), (.step39, 10, 23, 0xBEBFBC70),
      (.step40, 13, 4, 0x289B7EC6), (.step41, 0, 11, 0xEAA127FA), (.step42, 3, 16, 0xD4EF3085), (.step43, 6, 23, 0x04881D05),
      (.step44, 9, 4, 0xD9D4D039), (.step45, 12, 11, 0xE6DB99E5), (.step46, 15, 16, 0x1FA27CF8), (.step47, 2, 23, 0xC4AC5665)] : List (Instr × Nat × Nat × Word)),
    ∀ s : State, exec row.1 s = .next { s with unit := { s.unit with
      a := s.unit.d
      b := rotl32 (s.unit.a + (s.unit.b ^^^ s.unit.c ^^^ s.unit.d) + wordAt s.unit.x row.2.1 + row.2.2.2) row.2.2.1 + s.unit.b
      c := s.unit.b
      d := s.unit.c
      step := s.unit.step + 1 } }

/-- Rules R93 and R98, with the rows of R105 written out: message word, rotation, constant. Everything but the transform
unit stays. The constants are the spec's from general knowledge (log 11). That the step does so in every state, whatever the counter
holds and whether or not a transform is in progress, is the model's choice (log 21), and so is the counter's 0 after step 63
(log 4). -/
def Obligations.RoundFourStepsPerformTheirRows : Prop :=
  ∀ row ∈ ([
      (.step48, 0, 6, 0xF4292244), (.step49, 7, 10, 0x432AFF97), (.step50, 14, 15, 0xAB9423A7), (.step51, 5, 21, 0xFC93A039),
      (.step52, 12, 6, 0x655B59C3), (.step53, 3, 10, 0x8F0CCC92), (.step54, 10, 15, 0xFFEFF47D), (.step55, 1, 21, 0x85845DD1),
      (.step56, 8, 6, 0x6FA87E4F), (.step57, 15, 10, 0xFE2CE6E0), (.step58, 6, 15, 0xA3014314), (.step59, 13, 21, 0x4E0811A1),
      (.step60, 4, 6, 0xF7537E82), (.step61, 11, 10, 0xBD3AF235), (.step62, 2, 15, 0x2AD7D2BB), (.step63, 9, 21, 0xEB86D391)] : List (Instr × Nat × Nat × Word)),
    ∀ s : State, exec row.1 s = .next { s with unit := { s.unit with
      a := s.unit.d
      b := rotl32 (s.unit.a + (s.unit.c ^^^ (s.unit.b ||| ~~~s.unit.d)) + wordAt s.unit.x row.2.1 + row.2.2.2) row.2.2.1 + s.unit.b
      c := s.unit.b
      d := s.unit.c
      step := s.unit.step + 1 } }

/-- Rules R94 and R95: `F_0` selects on `x` and `F_1` on `z`, bit by bit. -/
def Obligations.RoundFunctionsSelectBitByBit : Prop :=
  ∀ (x y z : Word) (i : Nat), i < 32 →
    (roundFn 0 x y z).getLsbD i = (if x.getLsbD i then y.getLsbD i else z.getLsbD i) ∧
    (roundFn 1 x y z).getLsbD i = (if z.getLsbD i then x.getLsbD i else y.getLsbD i)

/-- Rule R78: the closed forms of the four message orders, and that each order uses every message word once. -/
def Obligations.MessageOrdersHaveClosedForms : Prop :=
  (∀ j, j < 16 → (stepRow j).k = j ∧ (stepRow (16 + j)).k = (1 + 5 * j) % 16 ∧
    (stepRow (32 + j)).k = (5 + 3 * j) % 16 ∧ (stepRow (48 + j)).k = 7 * j % 16) ∧
  ∀ r, r < 4 → ((List.range 16).map fun j => (stepRow (16 * r + j)).k).Perm (List.range 16)

/-- Rules R27, R79, R93, R99: a transform started step by step takes 64 steps of the machine. Before step `n` the counter holds
`n` and nothing outside the transform unit has changed; after step 63 `H` is `Transform(H, B)`. That a transform can be watched
step by step is the model's view (log 3), and so is the final addition in the same step of the machine as step 63 (log 4). -/
def Obligations.SixtyFourStepsAreTheTransform : Prop :=
  ∀ (s : State) (blk : Block),
    (∀ n, n < 64 → ∃ u : TransformUnit, Host.Core.run core n (beginTransform blk s) = .next { s with unit := u } ∧
      u.step.toNat = n ∧ u.active = true ∧ u.x = messageWords blk) ∧
    ∃ u : TransformUnit, Host.Core.run core 64 (beginTransform blk s) =
        .next { s with acc := { s.acc with h := transform s.acc.h blk }, unit := u } ∧ u.active = false

/-- Rule R100: the transform whose registers keep their names is the same function. -/
def Obligations.UnrolledTransformIsTheTransform : Prop :=
  ∀ (h : HWords) (blk : Block), unrolledTransform h blk = transform h blk

/-- Vectors X1 and X5 of 95_test_vectors.md section 3. Their values rest on the step constants, which the spec takes from general
knowledge (log 11). -/
def Obligations.TransformVectorsOfTheSpec : Prop :=
  transform initialH (blockOf fun _ => 0x00) = #v[0x031F1DAC, 0x6EA58ED0, 0x1FAB67B7, 0x74317791] ∧
  transform initialH (blockOf fun _ => 0xFF) = #v[0x561987B4, 0x493E9151, 0xBDC6554B, 0x015C40DF]

/-- Rule R104: XFORM replaces `H` by the transform of the 64 bytes at `ADDR`, and changes nothing else. -/
def Obligations.XformTransformsTheBlockAtAddr : Prop :=
  ∀ (s : State) (blk : Block), s.err = none → s.sess = .OPEN → s.addr.toNat + 64 ≤ 2 ^ 32 →
    (∀ k, k < 64 → byteAt blk k = s.mem.read (s.addr.toNat + k)) →
    exec .xform s = .next { s with acc := { s.acc with h := transform s.acc.h blk } }

/-! ## The Streaming Accumulator (41_streaming_accumulator.md) -/

/-- Rules R110 and R21: INIT creates a fresh accumulator in every session state; `P` is not written. -/
def Obligations.InitCreatesAFreshAccumulator : Prop :=
  ∀ s : State, s.err = none →
    exec .init s = .next { s with
      acc := { s.acc with h := #v[0x67452301, 0xEFCDAB89, 0x98BADCFE, 0x10325476], c0 := 0, c1 := 0, fill := 0 }
      sess := .OPEN }

/-- Rules R115 and R112: ABSORBI counts 8 bits, stores its byte at `fill`, and advances `fill`; the 64th byte transforms `P`. -/
def Obligations.AbsorbiAbsorbsItsByte : Prop :=
  ∀ (s : State) (b : Byte), s.err = none → s.sess = .OPEN →
    ∃ t, exec (.absorbi b) s = .next t ∧ t = { s with acc := t.acc } ∧
      t.acc.count = (s.acc.count + 8) % 2 ^ 64 ∧
      (∀ k, k < 64 → byteAt t.acc.p k = if k = s.acc.fill.toNat then b else byteAt s.acc.p k) ∧
      (s.acc.fill.toNat < 63 → t.acc.fill.toNat = s.acc.fill.toNat + 1 ∧ t.acc.h = s.acc.h) ∧
      (s.acc.fill.toNat = 63 → t.acc.fill = 0 ∧ t.acc.h = transform s.acc.h t.acc.p)

/-- Rule R113: the high half is incremented exactly when the new low half is less than the old one; for a multiple of 8 that is
at 0xFFFFFFF8 only; the high half wraps. -/
def Obligations.CarryFollowsTheLowHalf : Prop :=
  ∀ (acc : Accumulator) (b : Byte),
    (absorb acc b).c0 = acc.c0 + 8 ∧
    (absorb acc b).c1 = (if (absorb acc b).c0.toNat < acc.c0.toNat then acc.c1 + 1 else acc.c1) ∧
    (acc.c0.toNat % 8 = 0 → ((absorb acc b).c0.toNat < acc.c0.toNat ↔ acc.c0 = 0xFFFFFFF8))

/-- Rules R116, R111, R117: ABSORB absorbs the `LEN` bytes at `ADDR` in ascending order, counts 8 for each and advances `fill`
modulo 64. -/
def Obligations.AbsorbAbsorbsItsSlice : Prop :=
  ∀ s : State, s.err = none → s.sess = .OPEN → s.addr.toNat + s.len.toNat ≤ 2 ^ 32 →
    ∃ t, exec .absorb s = .next t ∧ t = { s with acc := t.acc } ∧
      t.acc = (List.range s.len.toNat).foldl (fun a i => absorb a (s.mem.read (s.addr.toNat + i))) s.acc ∧
      t.acc.count = (s.acc.count + 8 * s.len.toNat) % 2 ^ 64 ∧
      t.acc.fill.toNat = (s.acc.fill.toNat + s.len.toNat) % 64

/-- Rule R114: ABSORB of `n` bytes is ABSORB of the first `m` and then of the rest. -/
def Obligations.SplittingASliceDoesNotMatter : Prop :=
  ∀ (s : State) (m : Nat), s.err = none → s.sess = .OPEN → s.addr.toNat + s.len.toNat ≤ 2 ^ 32 → m ≤ s.len.toNat →
    ∃ t u v, exec .absorb s = .next t ∧
      exec .absorb { s with len := BitVec.ofNat 32 m } = .next u ∧
      exec .absorb { u with addr := BitVec.ofNat 32 (s.addr.toNat + m), len := BitVec.ofNat 32 (s.len.toNat - m) } = .next v ∧
      t = { v with addr := s.addr, len := s.len }

/-- Rule R114: ABSORB is its bytes absorbed by one ABSORBI each. -/
def Obligations.AbsorbIsItsImmediateBytes : Prop :=
  ∀ s : State, s.err = none → s.sess = .OPEN → s.addr.toNat + s.len.toNat ≤ 2 ^ 32 →
    exec .absorb s =
      (List.range s.len.toNat).foldl (fun (o : Out) i =>
        match o with
        | .next t => exec (.absorbi (s.mem.read (s.addr.toNat + i))) t
        | o => o) (.next s)

/-! ## Finalization (42_finalization.md) -/

/-- Rules R130, R131, R133, R135, R136: FINAL with a tail of 56 to 63 bytes. The reading of `N` is the spec's decision D1 (log 12). -/
def Obligations.FinalWithALongTailIsCaseA : Prop :=
  ∀ s : State, s.err = none → s.sess = .OPEN → s.acc.fill = 0 → 56 ≤ s.len.toNat → s.len.toNat ≤ 63 →
    s.addr.toNat + s.len.toNat ≤ 2 ^ 32 →
    let n : Word := s.acc.c0 + BitVec.ofNat 32 (8 * s.len.toNat)
    let mk : Word := (n >>> 2) ||| 1
    let first : Block := blockOf fun k =>
      if k < s.len.toNat then s.mem.read (s.addr.toNat + k) else if k = s.len.toNat then 0x80 else 0x00
    let second : Block := blockOf fun k =>
      if k < 4 then n.extractLsb' (8 * k) 8 else if k < 60 then 0x00 else mk.extractLsb' (8 * (k - 60)) 8
    ∃ t, exec .final s = .next t ∧ t = { s with acc := t.acc, sess := .DONE } ∧
      t.acc.h = transform (transform s.acc.h first) second ∧ t.acc.p = first ∧ t.acc.fill = 0 ∧
      t.acc.c0 = s.acc.c0 + 0x200 ∧ t.acc.count = (s.acc.count + 512) % 2 ^ 64

/-- Rules R130, R131, R133, R137, R138: FINAL with a tail of 0 to 55 bytes. The reading of `N` is the spec's decision D1 (log 12). -/
def Obligations.FinalWithAShortTailIsCaseB : Prop :=
  ∀ s : State, s.err = none → s.sess = .OPEN → s.acc.fill = 0 → s.len.toNat ≤ 55 →
    s.addr.toNat + s.len.toNat ≤ 2 ^ 32 →
    let n : Word := s.acc.c0 + BitVec.ofNat 32 (8 * s.len.toNat)
    let mk : Word := (n >>> 2) ||| 1
    let last : Block := blockOf fun k =>
      if k < 4 then n.extractLsb' (8 * k) 8
      else if k < s.len.toNat + 4 then s.mem.read (s.addr.toNat + (k - 4))
      else if k = s.len.toNat + 4 then 0x80
      else if k < 60 then 0x00
      else mk.extractLsb' (8 * (k - 60)) 8
    ∃ t, exec .final s = .next t ∧ t = { s with acc := t.acc, sess := .DONE } ∧
      t.acc.h = transform s.acc.h last ∧ t.acc.p = last ∧ t.acc.fill.toNat = s.len.toNat + 4 ∧
      t.acc.c0 = n + 32 ∧ t.acc.count = (s.acc.count + 8 * (s.len.toNat + 4)) % 2 ^ 64

/-- Rule R133: for a bit count, a multiple of 8, the marker is a quarter of it plus 1. -/
def Obligations.MarkerIsAQuarterPlusOne : Prop :=
  ∀ n : Word, n.toNat % 8 = 0 → (marker n).toNat = n.toNat / 4 + 1

/-! ## Sign / Apply (43_sign_apply.md) -/

/-- Rules R150, R151, R102, R135, R137: DIGEST leaves in `H` the chain of transforms, from the initial words, of the payload's
complete blocks and its last block or two; nothing else outside the accumulator and `SESS` changes. The bit count in the last block
(inside `referenceDigest`: 8 times the payload length) is the spec's decision D1 among three readings (log 12). -/
def Obligations.DigestIsTheChainOfThePayloadsBlocks : Prop :=
  ∀ s : State, s.err = none → 20 ≤ s.len.toNat → s.addr.toNat + s.len.toNat ≤ 2 ^ 32 →
    let payload := s.mem.slice (s.addr.toNat + 20) (s.len.toNat - 20)
    ∃ t, exec .digest s = .next t ∧ t = { s with acc := t.acc, sess := .DONE } ∧
      t.acc.h = referenceDigest payload ∧
      (payloadBlocks payload).length = (s.len.toNat - 20) / 64 + (if (s.len.toNat - 20) % 64 ≥ 56 then 2 else 1)

/-- Rules R151 and R203: DIGEST is INIT, ABSORB of the complete blocks, FINAL of the tail; only the operand registers differ. -/
def Obligations.DigestIsTheStreamingSequence : Prop :=
  ∀ s : State, s.err = none → 20 ≤ s.len.toNat → s.addr.toNat + s.len.toNat ≤ 2 ^ 32 →
    let p := s.len.toNat - 20
    ∃ s1 s2 s3, exec .init s = .next s1 ∧
      exec .absorb { s1 with addr := BitVec.ofNat 32 (s.addr.toNat + 20), len := BitVec.ofNat 32 (p - p % 64) } = .next s2 ∧
      exec .final { s2 with addr := BitVec.ofNat 32 (s.addr.toNat + 20 + (p - p % 64)), len := BitVec.ofNat 32 (p % 64) } =
        .next s3 ∧
      exec .digest s = .next { s3 with addr := s.addr, len := s.len }

/-- Rule R155: the accumulator DIGEST leaves is a function of the payload bytes and of the length alone: not of the base address,
the tag, the digest slot, the session before, or what `P` held. -/
def Obligations.DigestDependsOnThePayloadAlone : Prop :=
  ∀ s t : State, s.err = none → t.err = none → s.len = t.len → 20 ≤ s.len.toNat →
    s.addr.toNat + s.len.toNat ≤ 2 ^ 32 → t.addr.toNat + t.len.toNat ≤ 2 ^ 32 →
    (∀ k, 20 ≤ k → k < s.len.toNat → s.mem.read (s.addr.toNat + k) = t.mem.read (t.addr.toNat + k)) →
    ∃ s' t', exec .digest s = .next s' ∧ exec .digest t = .next t' ∧ s'.acc = t'.acc

/-- Rules R136, R138, R151, R206: what DIGEST leaves in the counter and in `fill`; the high half never exceeds 7. -/
def Obligations.DigestLeavesThisCount : Prop :=
  ∀ s : State, s.err = none → 20 ≤ s.len.toNat → s.addr.toNat + s.len.toNat ≤ 2 ^ 32 →
    let p := s.len.toNat - 20
    ∃ t, exec .digest s = .next t ∧ t.acc.c1.toNat ≤ 7 ∧
      (56 ≤ p % 64 → t.acc.count = 8 * (p - p % 64 + 64) ∧ t.acc.fill = 0) ∧
      (p % 64 < 56 → t.acc.count = 8 * (p + 4) ∧ t.acc.fill.toNat = p % 64 + 4)

/-- Rules R152, R153, R156: SIGN leaves what DIGEST leaves, and in the digest slot, offsets 4 to 19, the digest bytes; every other
byte of memory is unchanged. -/
def Obligations.SignWritesTheDigestIntoTheSlot : Prop :=
  ∀ s : State, s.err = none → 20 ≤ s.len.toNat → s.addr.toNat + s.len.toNat ≤ 2 ^ 32 → s.mem.wf →
    ∃ t d, exec .sign s = .next t ∧ exec .digest s = .next d ∧ t = { d with mem := t.mem } ∧
      (∀ (j : Fin 4) (k : Nat), k < 4 →
        t.mem.read (s.addr.toNat + 4 + 4 * j.val + k) = (d.acc.h[j]).extractLsb' (8 * k) 8) ∧
      (∀ a, a < s.addr.toNat + 4 ∨ s.addr.toNat + 20 ≤ a → t.mem.read a = s.mem.read a)

/-- Rule R157: once a container is signed, neither SIGN nor DIGEST changes anything any more. -/
def Obligations.SigningASignedContainerChangesNothing : Prop :=
  ∀ s : State, s.err = none → 20 ≤ s.len.toNat → s.addr.toNat + s.len.toNat ≤ 2 ^ 32 → s.mem.wf →
    ∃ t, exec .sign s = .next t ∧ exec .sign t = .next t ∧ exec .digest t = .next t

/-! ## Faults (60_exceptions.md) -/

/-- Rule R172: ABSORBI, ABSORB, XFORM and FINAL raise `NoSession` when no session is open, whatever else holds. -/
def Obligations.CommandsNeedAnOpenSession : Prop :=
  ∀ s : State, s.err = none → s.sess ≠ .OPEN →
    (∀ b, exec (.absorbi b) s = .next { s with err := some .noSession, ecmd := BitVec.ofNat 32 (2 + 256 * b.toNat) }) ∧
    exec .absorb s = .next { s with err := some .noSession, ecmd := 0x3 } ∧
    exec .xform s = .next { s with err := some .noSession, ecmd := 0x4 } ∧
    exec .final s = .next { s with err := some .noSession, ecmd := 0x5 }

/-- Rule R173: FINAL raises `BadTail` when `fill ≠ 0` or `LEN > 63`, whatever its range. -/
def Obligations.FinalRaisesBadTail : Prop :=
  ∀ s : State, s.err = none → s.sess = .OPEN → (s.acc.fill ≠ 0 ∨ s.len.toNat > 63) →
    exec .final s = .next { s with err := some .badTail, ecmd := 0x5 }

/-- Rules R171 and R154: DIGEST and SIGN of fewer than 20 bytes raise `ShortContainer` and touch nothing. -/
def Obligations.ShortContainersFault : Prop :=
  ∀ s : State, s.err = none → s.len.toNat < 20 →
    exec .digest s = .next { s with err := some .shortContainer, ecmd := 0x6 } ∧
    exec .sign s = .next { s with err := some .shortContainer, ecmd := 0x7 }

/-- Rule R174: a range past the last address raises `RangeError`, once the checks before it have passed; a zero-length slice never
does, whatever `ADDR` is. -/
def Obligations.RangesPastTheLastAddressFault : Prop :=
  ∀ s : State, s.err = none →
    (s.sess = .OPEN → s.addr.toNat + s.len.toNat > 2 ^ 32 →
      exec .absorb s = .next { s with err := some .rangeError, ecmd := 0x3 }) ∧
    (s.sess = .OPEN → s.addr.toNat + 64 > 2 ^ 32 →
      exec .xform s = .next { s with err := some .rangeError, ecmd := 0x4 }) ∧
    (s.sess = .OPEN → s.acc.fill = 0 → s.len.toNat ≤ 63 → s.addr.toNat + s.len.toNat > 2 ^ 32 →
      exec .final s = .next { s with err := some .rangeError, ecmd := 0x5 }) ∧
    (20 ≤ s.len.toNat → s.addr.toNat + s.len.toNat > 2 ^ 32 →
      exec .digest s = .next { s with err := some .rangeError, ecmd := 0x6 } ∧
      exec .sign s = .next { s with err := some .rangeError, ecmd := 0x7 }) ∧
    (s.sess = .OPEN → s.len = 0 → exec .absorb s = .next s ∧
      (s.acc.fill = 0 → ∃ t, exec .final s = .next t ∧ t.err = none))

/-- Rule R178: a `CMD` write stops at the first line of the order that applies; past all of them the command cannot fault. -/
def Obligations.TheFirstApplicableCheckIsReported : Prop :=
  ∀ (w : Word) (s : State),
    (s.err ≠ none → writeCommand w s = .next s) ∧
    (s.err = none → (∀ i, decodeCommand w ≠ .ok i) →
      writeCommand w s = .next { s with err := some .illegalCommand, ecmd := w }) ∧
    (∀ i f, s.err = none → decodeCommand w = .ok i → firstFault i s = some f →
      writeCommand w s = .next { s with err := some f, ecmd := w }) ∧
    (∀ i, s.err = none → decodeCommand w = .ok i → firstFault i s = none →
      ∃ t, writeCommand w s = .next t ∧ t.err = none ∧ t.ecmd = s.ecmd ∧ t.sess = sessionAfter i s.sess)

/-- Rule R177: a halted engine discards `CMD` writes undecoded, and still takes `ADDR` and `LEN` writes and register reads (of a
register that is still unspecified, rule R39, the read is a free draw in this state too). -/
def Obligations.AHaltedEngineDiscardsCommands : Prop :=
  ∀ (s : State) (rest : List HostAccess), s.err ≠ none → s.unit.active = false →
    (∀ w, step { s with host := .write 0x00 4 w :: rest } = .next { s with host := rest }) ∧
    (∀ v, step { s with host := .write 0x08 4 v :: rest } = .next { s with host := rest, addr := v }) ∧
    (∀ v, step { s with host := .write 0x0C 4 v :: rest } = .next { s with host := rest, len := v }) ∧
    (∀ r, s.sess ≠ .NONE ∨ drawWidth r = none →
      step { s with host := .read r.offset 4 :: rest } = .next { s with host := rest, reads := regView r s :: s.reads })

/-- Rule R176: a `CMD` write that raises a fault sets `ERR` and `ECMD` and nothing else. -/
def Obligations.AFaultChangesErrAndEcmdOnly : Prop :=
  ∀ (w : Word) (s t : State), s.err = none → writeCommand w s = .next t → t.err ≠ none →
    t = { s with err := t.err, ecmd := w }

/-- Rules R32, R36, R179: once set, `ERR` and `ECMD` are changed by no step but a reset. -/
def Obligations.FaultsAreLatchedUntilReset : Prop :=
  ∀ (s t : State) (f : FaultCode), step s = .next t → s.err = some f → (resetsNext s = false ∨ s.unit.active = true) →
    t.err = some f ∧ t.ecmd = s.ecmd

/-! ## The host port and the step (10_state.md, 70_reset_and_hazards.md) -/

/-- Rules R29 and R75: a `CMD` write whose word decodes to an instruction runs exactly that instruction, after the access has been
taken from the host's list. With no access pending the engine is idle (rule R201). -/
def Obligations.ACommandWriteRunsTheDecodedInstruction : Prop :=
  (∀ (s : State) (w : Word) (i : Instr) (rest : List HostAccess), s.unit.active = false → s.host = .write 0x00 4 w :: rest →
    s.err = none → decode (.command w) = .ok i → step s = exec i { s with host := rest }) ∧
  (∀ s : State, s.unit.active = false → s.host = [] → step s = .next s)

/-- While a transform is in progress, a step of the machine runs the step its counter selects (the selection is rules R27 and R76);
after step 63 the working registers are added into `H` (the sum is rule R99) and the transform ends. That a step of the machine runs
one step of a transform is the model's choice (log 3), and so is the final addition in the same step as step 63 (log 4). -/
def Obligations.TheSequencerRunsTheSelectedStep : Prop :=
  ∀ (s t : State) (i : Instr), s.unit.active = true → decode (.step s.unit.step) = .ok i → exec i s = .next t →
    step s = .next (if s.unit.step = 63 then
      { t with
        acc := { t.acc with h :=
          #v[t.acc.h[0] + t.unit.a, t.acc.h[1] + t.unit.b, t.acc.h[2] + t.unit.c, t.acc.h[3] + t.unit.d] }
        unit := { t.unit with active := false } }
      else t)

/-- A table word placed as the next instruction is what the next step runs: the model's own convention (logs 3, 4, 5 and 23). -/
def Obligations.APlacedWordIsTheNextInstruction : Prop :=
  ∀ (s : State) (nbits w : Nat) (i : Instr), decodeTableWord nbits w = some i →
    (8 < nbits → step (s.withFetchWord nbits w) = exec i { s with unit := { s.unit with active := false } }) ∧
    (nbits ≤ 8 → ∀ t, exec i { s with unit := { s.unit with step := BitVec.ofNat 6 w, active := true } } = .next t →
      step (s.withFetchWord nbits w) = .next (if w = 63 then finishTransform t else t))

/-- Rule R30: the fields a read of `STATUS` returns; a write to it is discarded; after reset it reads 0. -/
def Obligations.StatusShowsSessionAndFault : Prop :=
  (∀ (s : State) (rest : List HostAccess), s.unit.active = false →
    (∃ v : Word, step { s with host := .read 0x04 4 :: rest } = .next { s with host := rest, reads := v :: s.reads } ∧
      v.extractLsb' 0 2 = (match s.sess with | .NONE => 0 | .OPEN => 1 | .DONE => 2) ∧
      v.extractLsb' 2 2 = 0 ∧
      v.extractLsb' 4 4 = (match s.err with
        | none => 0
        | some .shortContainer => 1
        | some .illegalCommand => 2
        | some .noSession => 3
        | some .badTail => 4
        | some .rangeError => 5) ∧
      v.extractLsb' 8 24 = 0) ∧
    ∀ v, step { s with host := .write 0x04 4 v :: rest } = .next { s with host := rest }) ∧
  step { State.reset with host := [.read 0x04 4] } = .next { State.reset with reads := [0] }

/-- Rules R28, R29, R33 to R37: what a read of each register returns once an accumulator has been created; `CMD`, `ADDR`, `LEN`
and `ECMD` read so before that too. -/
def Obligations.RegisterReadsShowTheirRegisters : Prop :=
  ∀ (s : State) (rest : List HostAccess), s.unit.active = false →
    (∀ p ∈ ([(0x00, 0), (0x08, s.addr), (0x0C, s.len), (0x2C, s.ecmd)] : List (Nat × Word)),
      step { s with host := .read p.1 4 :: rest } = .next { s with host := rest, reads := p.2 :: s.reads }) ∧
    (s.sess ≠ .NONE →
      ∀ p ∈ ([(0x10, s.acc.h[0]), (0x14, s.acc.h[1]), (0x18, s.acc.h[2]), (0x1C, s.acc.h[3]), (0x20, s.acc.c0),
          (0x24, s.acc.c1), (0x28, s.acc.fill.setWidth 32)] : List (Nat × Word)),
        step { s with host := .read p.1 4 :: rest } = .next { s with host := rest, reads := p.2 :: s.reads })

/-- Rule R39, item U3: before the first accumulator each read of `H0` to `H3`, `C0`, `C1` or `FILL` is a free draw, within 0 to 63
for `FILL`. That a draw is the free value of a counter is the model's form (log 1, log 7). -/
def Obligations.UnspecifiedReadsAreFreeDraws : Prop :=
  ∀ (s : State) (rest : List HostAccess), s.unit.active = false → s.sess = .NONE →
    (∀ offset ∈ [0x10, 0x14, 0x18, 0x1C, 0x20, 0x24],
      step { s with host := .read offset 4 :: rest } =
        .next { s with host := rest, reads := Config.freeWord s.draws :: s.reads, draws := s.draws + 1 }) ∧
    ∃ v : Word, v.toNat = (Config.freeWord s.draws).toNat % 64 ∧
      step { s with host := .read 0x28 4 :: rest } =
        .next { s with host := rest, reads := v :: s.reads, draws := s.draws + 1 }

/-- Rules R33, R34, R37: `ADDR` and `LEN` take any 32-bit value in every state; a write to a read-only register is discarded. -/
def Obligations.OnlyOperandRegistersTakeHostWrites : Prop :=
  ∀ (s : State) (rest : List HostAccess) (v : Word), s.unit.active = false →
    step { s with host := .write 0x08 4 v :: rest } = .next { s with host := rest, addr := v } ∧
    step { s with host := .write 0x0C 4 v :: rest } = .next { s with host := rest, len := v } ∧
    ∀ offset ∈ [0x04, 0x10, 0x14, 0x18, 0x1C, 0x20, 0x24, 0x28, 0x2C],
      step { s with host := .write offset 4 v :: rest } = .next { s with host := rest }

/-- Rule R37, item U7: an access that is not an aligned 32-bit access below 0x30 is refused, and every other one is answered. -/
def Obligations.OnlyAlignedWordAccessesAreDefined : Prop :=
  ∀ (s : State) (rest : List HostAccess) (offset size : Nat) (v : Word), s.unit.active = false →
    (accessWf offset size = false →
      step { s with host := .read offset size :: rest } = .refused (.hostAccessOutsideSpec offset size) ∧
      step { s with host := .write offset size v :: rest } = .refused (.hostAccessOutsideSpec offset size)) ∧
    (accessWf offset size = true →
      (∃ t, step { s with host := .read offset size :: rest } = .next t) ∧
      (∃ t, step { s with host := .write offset size v :: rest } = .next t))

/-- Rules R50, R64: a byte the host stores reads back and changes no other byte. An address of 2^32 or more does not exist; that an
access to one stops is the model's choice (log 9). -/
def Obligations.HostMemoryAccessesReadAndWriteBytes : Prop :=
  ∀ (s : State) (rest : List HostAccess) (a : Nat) (v : Byte), s.unit.active = false → s.mem.wf →
    (a < 2 ^ 32 → ∃ t, step { s with host := .memWrite a v :: rest } = .next t ∧
      t = { s with host := rest, mem := t.mem } ∧ t.mem.read a = v ∧ ∀ b, b ≠ a → t.mem.read b = s.mem.read b) ∧
    (a < 2 ^ 32 → step { s with host := .memRead a :: rest } =
      .next { s with host := rest, reads := (s.mem.read a).setWidth 32 :: s.reads }) ∧
    (2 ^ 32 ≤ a → step { s with host := .memWrite a v :: rest } = .fault (.noSuchAddress a) ∧
      step { s with host := .memRead a :: rest } = .fault (.noSuchAddress a))

/-- Rules R39 and R200: what reset gives a value, and that it leaves container memory alone. -/
def Obligations.ResetGivesTheResetValues : Prop :=
  (∀ (s : State) (rest : List HostAccess), s.unit.active = false → s.host = .reset :: rest →
    ∃ t, step s = .next t ∧ t.sess = .NONE ∧ t.err = none ∧ t.ecmd = 0 ∧ t.addr = 0 ∧ t.len = 0 ∧
      t.mem = s.mem ∧ t.host = rest) ∧
  State.reset.sess = .NONE ∧ State.reset.err = none ∧ State.reset.ecmd = 0 ∧ State.reset.addr = 0 ∧ State.reset.len = 0

/-- Rule R200, item U6: reset during a command. Every register the reset gives a value takes it; each slot byte of a SIGN that had
started holds its old value or its digest byte; every other byte is unchanged. -/
def Obligations.ResetDuringACommandLeavesSlotBytesOldOrNew : Prop :=
  ∀ (s : State) (rest : List HostAccess) (w : Word), s.unit.active = false → s.mem.wf →
    ∃ t, step { s with host := .commandThenReset w :: rest } = .next t ∧
      t.sess = .NONE ∧ t.err = none ∧ t.ecmd = 0 ∧ t.addr = 0 ∧ t.len = 0 ∧ t.host = rest ∧
      (∀ a, a < s.addr.toNat + 4 ∨ s.addr.toNat + 20 ≤ a → t.mem.read a = s.mem.read a) ∧
      (∀ d, writeCommand w s = .next d → ∀ a, t.mem.read a = s.mem.read a ∨ t.mem.read a = d.mem.read a)

/-! ## Whole-machine rules -/

/-- The invariant holds at reset (rules R25, R36, R39). -/
def Obligations.ResetMeetsTheInvariant : Prop := State.reset.Inv

/-- Rule R25, and the canonical form of memory: every step keeps the invariant. -/
def Obligations.EveryStepKeepsTheInvariant : Prop :=
  ∀ s t : State, s.Inv → step s = .next t → t.Inv

/-- Rule R31: the table of session transitions. -/
def Obligations.CommandsMoveTheSessionAsTheTableSays : Prop :=
  ∀ (i : Instr) (s t : State), exec i s = .next t →
    t.sess = if s.err = none ∧ t.err = none then sessionAfter i s.sess else s.sess

/-- Rule R31: the session state `NONE` is entered by reset only. -/
def Obligations.OnlyResetEndsInNoSession : Prop :=
  ∀ s t : State, step s = .next t → t.sess = .NONE → s.sess = .NONE ∨ (resetsNext s = true ∧ s.unit.active = false)

/-- Rule R43: steps of two states that differ only in stale contents answer outcomes that differ only so; what no command has
written since the last creation of an accumulator reaches nothing. -/
def Obligations.StaleContentsReachNothing : Prop :=
  ∀ s t : State, SameButStale s t → outcomesAgree (step s) (step t)

/-- Rules R43 and R214: stale contents cannot be observed. -/
def Obligations.StaleContentsCannotBeObserved : Prop :=
  ∀ s t : State, SameButStale s t → observe s = observe t

/-- Rules R51 and R53: no instruction but SIGN changes memory, and SIGN only the sixteen bytes of the slot at `ADDR + 4`. -/
def Obligations.OnlySignStoresAndOnlyInTheSlot : Prop :=
  ∀ (i : Instr) (s t : State), exec i s = .next t →
    (i ≠ .sign → ∀ a, t.mem.read a = s.mem.read a) ∧
    (∀ a, a < operandAddr s + 4 ∨ operandAddr s + 20 ≤ a → t.mem.read a = s.mem.read a)

/-- The register frame (rule R41): no instruction changes `ADDR`, `LEN` or what belongs to the host; a command leaves the transform
unit, and a step everything but it; a command changes `ERR` and `ECMD` only by a fault, which changes nothing else; INIT leaves
`P`; XFORM leaves all of the accumulator but `H`. That a command leaves the transform unit is the model's form of rule R26 (log 3). -/
def Obligations.InstructionsLeaveOtherRegistersUnchanged : Prop :=
  ∀ (i : Instr) (s t : State), exec i s = .next t →
    t.addr = s.addr ∧ t.len = s.len ∧ t.host = s.host ∧ t.reads = s.reads ∧ t.draws = s.draws ∧
    (∀ w, encode i = .command w → t.unit = s.unit ∧
      ((t.err = s.err ∧ t.ecmd = s.ecmd) ∨
        (s.err = none ∧ t.err ≠ none ∧ t.ecmd = w ∧ t.acc = s.acc ∧ t.sess = s.sess ∧ t.mem = s.mem))) ∧
    (∀ n, encode i = .step n → t = { s with unit := t.unit }) ∧
    (i = .init → t.acc.p = s.acc.p) ∧
    (i = .xform → t.acc = { s.acc with h := t.acc.h })

/-- Rules R180 and R213: every instruction answers a next state in every state. -/
def Obligations.EveryInstructionAnswersANextState : Prop :=
  ∀ (i : Instr) (s : State), ∃ t, exec i s = .next t
end

