-- ==== Sys2Proof/Laws/Blocks.lean ====
section
/-! SUPPORT. Byte order and blocks: what a byte of a block is, and that a block is its bytes. -/

namespace Sys2Proof.Machine

theorem le32_length (x : Word) : (le32 x).length = 4 := rfl

theorem digestBytes_length (h : HWords) : (digestBytes h).length = 16 := rfl

/-- `word_le(LE32(x)) = x` (00_scope.md rule R9). -/
theorem wordLe_le32 (x : Word) :
    wordLe (x.extractLsb' 0 8) (x.extractLsb' 8 8) (x.extractLsb' 16 8) (x.extractLsb' 24 8) = x := by
  apply BitVec.eq_of_toNat_eq
  have hx := x.isLt
  simp only [wordLe, BitVec.extractLsb'_toNat, BitVec.toNat_ofNat, Nat.shiftRight_eq_div_pow]
  omega

theorem byteAt_eq_getElem (p : Block) {k : Nat} (hk : k < 64) : byteAt p k = p[k] := by
  simp [byteAt, hk]

@[simp] theorem byteAt_blockOf (f : Nat → Byte) {k : Nat} (hk : k < 64) : byteAt (blockOf f) k = f k := by
  rw [byteAt_eq_getElem _ hk]
  simp [blockOf]

/-- A block is its bytes. -/
theorem block_ext {p q : Block} (h : ∀ k, k < 64 → byteAt p k = byteAt q k) : p = q := by
  apply Vector.ext
  intro k hk
  rw [← byteAt_eq_getElem p hk, ← byteAt_eq_getElem q hk]
  exact h k hk

theorem blockOf_byteAt (p : Block) : blockOf (byteAt p) = p :=
  block_ext fun _ hk => byteAt_blockOf _ hk

theorem blockOf_congr {f g : Nat → Byte} (h : ∀ k, k < 64 → f k = g k) : blockOf f = blockOf g :=
  block_ext fun k hk => by rw [byteAt_blockOf _ hk, byteAt_blockOf _ hk, h k hk]

/-- `P[fill] <- b` writes that byte only (10_state.md rule R22). -/
theorem byteAt_putByte (p : Block) (fill : BitVec 6) (b : Byte) {k : Nat} (hk : k < 64) :
    byteAt (putByte p fill b) k = if k = fill.toNat then b else byteAt p k := by
  rw [byteAt_eq_getElem _ hk, byteAt_eq_getElem _ hk, putByte, Vector.getElem_set]
  simp only [eq_comm]

/-- A message word from its bytes (40_block_transform.md rule R91). -/
theorem wordAt_messageWords (p : Block) {j : Nat} (hj : j < 16) :
    wordAt (messageWords p) j =
      wordLe (byteAt p (4 * j)) (byteAt p (4 * j + 1)) (byteAt p (4 * j + 2)) (byteAt p (4 * j + 3)) := by
  simp [wordAt, messageWords, hj]

/-- Bytes 0 to 3 of `LE32(x)`. -/
theorem le32Byte_eq (x : Word) {k : Nat} (hk : k < 4) : le32Byte x k = x.extractLsb' (8 * k) 8 := by
  interval_cases k <;> rfl

theorem padding_getD (m k : Nat) : (padding m).getD k 0 = if k = 0 then 0x80 else 0 := by
  cases k with
  | zero => simp [padding]
  | succ k =>
    by_cases h : k < m - 1
    · simp [padding, List.getD_eq_getElem?_getD, h]
    · simp [padding, List.getD_eq_getElem?_getD, h]

theorem padding_length {m : Nat} (hm : 1 ≤ m) : (padding m).length = m := by
  simp [padding]; omega

end Sys2Proof.Machine
end

