-- ==== Sys2Proof/Laws/Memory.lean ====
section
/-! SUPPORT. Container memory: read after write, that a write changes one byte only, that every operation keeps the canonical
form, and that memories in that form are equal when they read the same. -/

namespace Sys2Proof.Machine

theorem Memory.wf_nil : Memory.wf [] := by simp [Memory.wf]

theorem Memory.wf_tail {c : Host.Cell} {m : Memory} (h : Memory.wf (c :: m)) : Memory.wf m :=
  ⟨(List.pairwise_cons.1 h.1).2, fun d hd => h.2 d (List.mem_cons_of_mem _ hd)⟩

/-- An address below every listed one reads as unlisted. -/
theorem Memory.read_below {m : Memory} {a : Nat} (h : ∀ c ∈ m, a < c.1) : m.read a = Config.unlistedByte := by
  induction m with
  | nil => rfl
  | cons c m ih =>
    obtain ⟨k, v⟩ := c
    have hk : a < k := h (k, v) (by simp)
    rw [Memory.read, if_neg (by omega)]
    exact ih fun d hd => h d (List.mem_cons_of_mem _ hd)

theorem Memory.head_below {c : Host.Cell} {m : Memory} (h : Memory.wf (c :: m)) {a : Nat} (ha : a ≤ c.1) :
    ∀ d ∈ m, a < d.1 := fun d hd => by
  have := (List.pairwise_cons.1 h.1).1 d hd
  omega

/-- A write changes no other byte (20_memory.md rule R57). -/
theorem Memory.read_write_other (m : Memory) {a b : Nat} (v : Byte) (hab : b ≠ a) : (m.write a v).read b = m.read b := by
  induction m with
  | nil =>
    simp only [Memory.write]
    split
    · rfl
    · simp [Memory.read, hab.symm]
  | cons c m ih =>
    obtain ⟨k, u⟩ := c
    simp only [Memory.write]
    split
    · split
      · rfl
      · simp [Memory.read, hab.symm]
    · split
      · next h =>
        subst h
        split <;> simp [Memory.read, hab.symm]
      · simp only [Memory.read]
        split
        · rfl
        · exact ih

/-- A read returns the last value written (20_memory.md rule R50). -/
theorem Memory.read_write_same {m : Memory} (hm : m.wf) (a : Nat) (v : Byte) : (m.write a v).read a = v := by
  induction m with
  | nil =>
    simp only [Memory.write]
    split
    · next h => simp [Memory.read, h]
    · simp [Memory.read]
  | cons c m ih =>
    obtain ⟨k, u⟩ := c
    simp only [Memory.write]
    split
    · next hlt =>
      split
      · next hv =>
        rw [Memory.read, if_neg (by omega), Memory.read_below (Memory.head_below hm (by simp; omega)), hv]
      · simp [Memory.read]
    · split
      · next heq =>
        subst heq
        split
        · next hv => rw [Memory.read_below (Memory.head_below hm (le_refl _)), hv]
        · simp [Memory.read]
      · next hne =>
        rw [Memory.read, if_neg (by omega)]
        exact ih (Memory.wf_tail hm)

/-- Every cell after a write is the written one or was there before. -/
theorem Memory.mem_write {m : Memory} {a : Nat} {v : Byte} {c : Host.Cell} (h : c ∈ m.write a v) :
    (c = (a, v) ∧ v ≠ Config.unlistedByte) ∨ c ∈ m := by
  induction m with
  | nil =>
    simp only [Memory.write] at h
    split at h
    · simp at h
    · next hv => exact .inl ⟨by simpa using h, hv⟩
  | cons d m ih =>
    obtain ⟨k, u⟩ := d
    simp only [Memory.write] at h
    split at h
    · split at h
      · exact .inr h
      · next hv =>
        rcases List.mem_cons.1 h with h | h
        · exact .inl ⟨h, hv⟩
        · exact .inr h
    · split at h
      · split at h
        · exact .inr (List.mem_cons_of_mem _ h)
        · next hv =>
          rcases List.mem_cons.1 h with h | h
          · exact .inl ⟨h, hv⟩
          · exact .inr (List.mem_cons_of_mem _ h)
      · rcases List.mem_cons.1 h with h | h
        · exact .inr (h ▸ List.mem_cons_self)
        · rcases ih h with h | h
          · exact .inl h
          · exact .inr (List.mem_cons_of_mem _ h)

/-- A write below 2^32 keeps the canonical form. -/
theorem Memory.write_wf {m : Memory} (hm : m.wf) {a : Nat} (ha : a < Config.memorySize) (v : Byte) : (m.write a v).wf := by
  refine ⟨?_, fun c hc => ?_⟩
  · induction m with
    | nil =>
      simp only [Memory.write]
      split <;> simp
    | cons d m ih =>
      obtain ⟨k, u⟩ := d
      have hlow := (List.pairwise_cons.1 hm.1).1
      simp only [Memory.write]
      split
      · next hlt =>
        split
        · exact hm.1
        · refine List.pairwise_cons.2 ⟨fun e he => ?_, hm.1⟩
          rcases List.mem_cons.1 he with rfl | he
          · exact hlt
          · exact lt_trans hlt (hlow e he)
      · split
        · next heq =>
          subst heq
          split
          · exact (Memory.wf_tail hm).1
          · exact List.pairwise_cons.2 ⟨fun e he => hlow e he, (Memory.wf_tail hm).1⟩
        · next h1 h2 =>
          refine List.pairwise_cons.2 ⟨fun e he => ?_, ih (Memory.wf_tail hm)⟩
          rcases Memory.mem_write he with ⟨rfl, -⟩ | he
          · show k < a
            omega
          · exact hlow e he
  · rcases Memory.mem_write hc with ⟨rfl, hv⟩ | hc
    · exact ⟨ha, hv⟩
    · exact hm.2 c hc

@[simp] theorem Memory.writeBytes_nil (m : Memory) (a : Nat) : m.writeBytes a [] = m := by unfold Memory.writeBytes; rfl

@[simp] theorem Memory.writeBytes_cons (m : Memory) (a : Nat) (b : Byte) (bs : List Byte) :
    m.writeBytes a (b :: bs) = (m.write a b).writeBytes (a + 1) bs := by rw [Memory.writeBytes]

@[simp] theorem writeSome_nil (m : Memory) (draw a : Nat) : writeSome m draw a [] = m := by unfold writeSome; rfl

@[simp] theorem writeSome_cons (m : Memory) (draw a : Nat) (b : Byte) (bs : List Byte) :
    writeSome m draw a (b :: bs) =
      writeSome (if Config.freeBit draw then m.write a b else m) (draw + 1) (a + 1) bs := by rw [writeSome]

/-- Byte writes within the address space keep the canonical form. -/
theorem Memory.writeBytes_wf {m : Memory} (hm : m.wf) {a : Nat} (bs : List Byte) (h : a + bs.length ≤ Config.memorySize) :
    (m.writeBytes a bs).wf := by
  induction bs generalizing m a with
  | nil => rwa [Memory.writeBytes_nil]
  | cons b bs ih =>
    simp only [List.length_cons] at h
    rw [Memory.writeBytes_cons]
    exact ih (Memory.write_wf hm (by omega) b) (by omega)

/-- Byte writes change nothing outside their range (20_memory.md rule R57). -/
theorem Memory.read_writeBytes_outside (m : Memory) {a b : Nat} (bs : List Byte) (h : b < a ∨ a + bs.length ≤ b) :
    (m.writeBytes a bs).read b = m.read b := by
  induction bs generalizing m a with
  | nil => rw [Memory.writeBytes_nil]
  | cons c bs ih =>
    simp only [List.length_cons] at h
    rw [Memory.writeBytes_cons, ih _ (by omega), Memory.read_write_other _ _ (by omega)]

/-- Byte `i` of a list of byte writes reads back. -/
theorem Memory.read_writeBytes_inside {m : Memory} (hm : m.wf) {a : Nat} (bs : List Byte) (h : a + bs.length ≤ Config.memorySize)
    {i : Nat} (hi : i < bs.length) : (m.writeBytes a bs).read (a + i) = bs.getD i 0 := by
  induction bs generalizing m a i with
  | nil => simp at hi
  | cons c bs ih =>
    simp only [List.length_cons] at h hi
    cases i with
    | zero =>
      rw [Memory.writeBytes_cons, Memory.read_writeBytes_outside _ _ (by omega)]
      simpa using Memory.read_write_same hm a c
    | succ i =>
      have := ih (m := m.write a c) (a := a + 1) (i := i) (Memory.write_wf hm (by omega) c) (by omega) (by omega)
      rw [Memory.writeBytes_cons, show a + (i + 1) = a + 1 + i by omega, this]
      simp

theorem Memory.read_head (c : Host.Cell) (m : Memory) : Memory.read (c :: m) c.1 = c.2 := by simp [Memory.read]

/-- Memories in canonical form are equal when they read the same. -/
theorem Memory.ext {m n : Memory} (hm : m.wf) (hn : n.wf) (h : ∀ a, m.read a = n.read a) : m = n := by
  induction m generalizing n with
  | nil =>
    cases n with
    | nil => rfl
    | cons d n =>
      have := h d.1
      rw [Memory.read, Memory.read_head] at this
      exact absurd this.symm (hn.2 d (by simp)).2
  | cons c m ih =>
    have hc := h c.1
    rw [Memory.read_head] at hc
    have hcv := (hm.2 c (by simp)).2
    cases n with
    | nil => exact absurd hc hcv
    | cons d n =>
      have hd := h d.1
      rw [Memory.read_head] at hd
      have hdv := (hn.2 d (by simp)).2
      have hkey : c.1 = d.1 := by
        rcases lt_trichotomy c.1 d.1 with hlt | heq | hgt
        · exact absurd (hc.trans (Memory.read_below (fun e he => by
            rcases List.mem_cons.1 he with rfl | he
            · exact hlt
            · exact Memory.head_below hn (by omega) e he))) hcv
        · exact heq
        · exact absurd (hd.symm.trans (Memory.read_below (fun e he => by
            rcases List.mem_cons.1 he with rfl | he
            · exact hgt
            · exact Memory.head_below hm (by omega) e he))) hdv
      have hval : c.2 = d.2 := by
        rw [hc, hkey, Memory.read_head]
      have hcd : c = d := Prod.ext hkey hval
      subst hcd
      refine congrArg (c :: ·) (ih (Memory.wf_tail hm) (Memory.wf_tail hn) fun a => ?_)
      by_cases ha : c.1 = a
      · subst ha
        rw [Memory.read_below (Memory.head_below hm (le_refl _)), Memory.read_below (Memory.head_below hn (le_refl _))]
      · have := h a
        rwa [Memory.read, if_neg ha, Memory.read, if_neg ha] at this

/-- Free byte writes keep the canonical form. -/
theorem writeSome_wf {m : Memory} (hm : m.wf) (draw : Nat) {a : Nat} (bs : List Byte) (h : a + bs.length ≤ Config.memorySize) :
    (writeSome m draw a bs).wf := by
  induction bs generalizing m draw a with
  | nil => rwa [writeSome_nil]
  | cons b bs ih =>
    simp only [List.length_cons] at h
    rw [writeSome_cons]
    refine ih ?_ _ (by omega)
    split
    · exact Memory.write_wf hm (by omega) b
    · exact hm

theorem read_writeSome_outside (m : Memory) (draw : Nat) {a b : Nat} (bs : List Byte) (h : b < a ∨ a + bs.length ≤ b) :
    (writeSome m draw a bs).read b = m.read b := by
  induction bs generalizing m draw a with
  | nil => rw [writeSome_nil]
  | cons c bs ih =>
    simp only [List.length_cons] at h
    rw [writeSome_cons, ih _ _ (by omega)]
    split
    · exact Memory.read_write_other _ _ (by omega)
    · rfl

/-- Free choice `draw + i` decides byte `i` (93_implementation_defined.md item U6). -/
theorem read_writeSome_inside {m : Memory} (hm : m.wf) (draw : Nat) {a : Nat} (bs : List Byte)
    (h : a + bs.length ≤ Config.memorySize) {i : Nat} (hi : i < bs.length) :
    (writeSome m draw a bs).read (a + i) = if Config.freeBit (draw + i) then bs.getD i 0 else m.read (a + i) := by
  induction bs generalizing m draw a i with
  | nil => simp at hi
  | cons c bs ih =>
    simp only [List.length_cons] at h hi
    rw [writeSome_cons]
    cases i with
    | zero =>
      rw [read_writeSome_outside _ _ _ (by omega)]
      simp only [Nat.add_zero, List.getD_cons_zero]
      split
      · exact Memory.read_write_same hm a c
      · rfl
    | succ i =>
      have hwf : (if Config.freeBit draw then m.write a c else m).wf := by
        split
        · exact Memory.write_wf hm (by omega) c
        · exact hm
      have := ih hwf (draw + 1) (a := a + 1) (i := i) (by omega) (by omega)
      rw [show a + (i + 1) = a + 1 + i by omega, this, show draw + 1 + i = draw + (i + 1) by omega, List.getD_cons_succ]
      congr 1
      split
      · exact Memory.read_write_other _ _ (by omega)
      · rfl

/-! ## Slices and blocks -/

@[simp] theorem Memory.slice_length (m : Memory) (a n : Nat) : (m.slice a n).length = n := by simp [Memory.slice]

theorem Memory.slice_getD (m : Memory) (a : Nat) {n i : Nat} (hi : i < n) : (m.slice a n).getD i 0 = m.read (a + i) := by
  simp [Memory.slice, List.getD_eq_getElem?_getD, hi]

theorem Memory.slice_append (m : Memory) (a n k : Nat) : m.slice a (n + k) = m.slice a n ++ m.slice (a + n) k := by
  simp [Memory.slice, List.range_add, Nat.add_assoc]

theorem Memory.slice_congr {m n : Memory} {a b k : Nat} (h : ∀ i, i < k → m.read (a + i) = n.read (b + i)) :
    m.slice a k = n.slice b k :=
  List.map_congr_left fun i hi => h i (List.mem_range.1 hi)

theorem byteAt_memBlock (m : Memory) (a : Nat) {k : Nat} (hk : k < 64) : byteAt (m.block a) k = m.read (a + k) :=
  byteAt_blockOf _ hk

/-- The forms of rules R56 and R57 for one byte are the byte read and the byte write. -/
theorem Memory.readLe_one (m : Memory) (a : Nat) : m.readLe a 1 = (m.read a).toNat := by simp [Memory.readLe]

theorem Memory.writeLe_one (m : Memory) (a v : Nat) : m.writeLe a 1 v = m.write a (BitVec.ofNat 8 v) := by
  simp [Memory.writeLe]

end Sys2Proof.Machine
end

