-- ==== Sys2Proof/Laws/Accumulator.lean ====
section
/-! SUPPORT. What `absorb` and `update` do to each part of the accumulator (41_streaming_accumulator.md rules R111 to R113). -/

namespace Sys2Proof.Machine

/-! ## One byte -/

@[simp] theorem absorb_c0 (acc : Accumulator) (b : Byte) : (absorb acc b).c0 = countLow acc.c0 := by
  unfold absorb; dsimp only; split <;> rfl

@[simp] theorem absorb_c1 (acc : Accumulator) (b : Byte) : (absorb acc b).c1 = countHigh acc.c0 acc.c1 := by
  unfold absorb; dsimp only; split <;> rfl

@[simp] theorem absorb_p (acc : Accumulator) (b : Byte) : (absorb acc b).p = putByte acc.p acc.fill b := by
  unfold absorb; dsimp only; split <;> rfl

theorem absorb_h (acc : Accumulator) (b : Byte) :
    (absorb acc b).h = if acc.fill.toNat = 63 then transform acc.h (putByte acc.p acc.fill b) else acc.h := by
  unfold absorb; dsimp only
  split
  · rw [if_pos (by omega)]
  · rw [if_neg (by omega)]

theorem absorb_fill (acc : Accumulator) (b : Byte) : (absorb acc b).fill.toNat = (acc.fill.toNat + 1) % 64 := by
  have := acc.fill.isLt
  unfold absorb; dsimp only
  split
  · next h => simp [h]
  · simp [BitVec.toNat_add]

theorem countLow_toNat (old : Word) : (countLow old).toNat = (old.toNat + 8) % 2 ^ 32 := by
  simp [countLow, BitVec.toNat_add]

/-- The high half, as a number (rule R113). -/
theorem countHigh_toNat (old high : Word) :
    (countHigh old high).toNat = if 2 ^ 32 ≤ old.toNat + 8 then (high.toNat + 1) % 2 ^ 32 else high.toNat := by
  have := old.isLt
  unfold countHigh
  rw [countLow_toNat]
  by_cases h : 2 ^ 32 ≤ old.toNat + 8
  · rw [if_pos h, if_pos (by omega)]
    simp [BitVec.toNat_add]
  · rw [if_neg h, if_neg (by omega)]

/-- The carry rule keeps the true 64-bit count, and wraps at 2^64 (rule R113, item U2). -/
theorem absorb_count (acc : Accumulator) (b : Byte) : (absorb acc b).count = (acc.count + 8) % 2 ^ 64 := by
  have h0 := acc.c0.isLt
  have h1 := acc.c1.isLt
  simp only [Accumulator.count, absorb_c0, absorb_c1, countHigh_toNat, countLow_toNat]
  split <;> omega

/-- The accumulator's invariants are kept byte by byte (10_state.md rule R25). -/
theorem absorb_wf {acc : Accumulator} (h : acc.wf) (b : Byte) : (absorb acc b).wf := by
  obtain ⟨h8, hf⟩ := h
  have h0 := acc.c0.isLt
  have h1 := acc.fill.isLt
  refine ⟨?_, ?_⟩
  · rw [absorb_c0, countLow_toNat]
    omega
  · rw [absorb_fill, absorb_c0, countLow_toNat]
    omega

/-! ## A slice -/

@[simp] theorem update_nil (acc : Accumulator) : update acc [] = acc := rfl

theorem update_cons (acc : Accumulator) (b : Byte) (bs : List Byte) : update acc (b :: bs) = update (absorb acc b) bs := rfl

/-- Splitting a slice does not matter to `update` (rule R111). -/
theorem update_append (acc : Accumulator) (bs cs : List Byte) : update acc (bs ++ cs) = update (update acc bs) cs :=
  List.foldl_append

theorem update_fill (acc : Accumulator) (bs : List Byte) : (update acc bs).fill.toNat = (acc.fill.toNat + bs.length) % 64 := by
  induction bs generalizing acc with
  | nil =>
    have := acc.fill.isLt
    simp only [update_nil, List.length_nil]
    omega
  | cons b bs ih =>
    rw [update_cons, ih, absorb_fill, List.length_cons]
    omega

theorem update_wf {acc : Accumulator} (h : acc.wf) (bs : List Byte) : (update acc bs).wf := by
  induction bs generalizing acc with
  | nil => exact h
  | cons b bs ih => exact ih (absorb_wf h b)

/-- The low half alone: 8 for each byte, modulo 2^32. -/
theorem update_c0 (acc : Accumulator) (bs : List Byte) :
    (update acc bs).c0.toNat = (acc.c0.toNat + 8 * bs.length) % 2 ^ 32 := by
  induction bs generalizing acc with
  | nil =>
    have := acc.c0.isLt
    simp only [update_nil, List.length_nil]
    omega
  | cons b bs ih =>
    rw [update_cons, ih, absorb_c0, countLow_toNat, List.length_cons]
    omega

/-- The 64-bit count: 8 for each byte, modulo 2^64 (rules R113, R117). -/
theorem update_count (acc : Accumulator) (bs : List Byte) :
    (update acc bs).count = (acc.count + 8 * bs.length) % 2 ^ 64 := by
  induction bs generalizing acc with
  | nil =>
    have h0 := acc.c0.isLt
    have h1 := acc.c1.isLt
    simp only [update_nil, List.length_nil, Accumulator.count]
    omega
  | cons b bs ih =>
    rw [update_cons, ih, absorb_count, List.length_cons]
    omega

/-- While the block is not full, `H` stays, the bytes go to `P[fill ..]` and the rest of `P` stays. -/
theorem update_short (acc : Accumulator) (bs : List Byte) (h : acc.fill.toNat + bs.length < 64) :
    (update acc bs).h = acc.h ∧
      (update acc bs).fill.toNat = acc.fill.toNat + bs.length ∧
      ∀ k, k < 64 → byteAt (update acc bs).p k =
        if acc.fill.toNat ≤ k ∧ k < acc.fill.toNat + bs.length then bs.getD (k - acc.fill.toNat) 0 else byteAt acc.p k := by
  induction bs generalizing acc with
  | nil => exact ⟨rfl, by simp, fun k _ => by rw [if_neg (by simp)]; rfl⟩
  | cons b bs ih =>
    simp only [List.length_cons] at h
    have hf : (absorb acc b).fill.toNat = acc.fill.toNat + 1 := by rw [absorb_fill]; omega
    obtain ⟨hh, hfill, hp⟩ := ih (absorb acc b) (by omega)
    rw [update_cons]
    refine ⟨?_, by rw [hfill, hf, List.length_cons]; omega, fun k hk => ?_⟩
    · rw [hh, absorb_h, if_neg (by omega)]
    · rw [hp k hk, hf, absorb_p, byteAt_putByte _ _ _ hk, List.length_cons]
      by_cases hk0 : k = acc.fill.toNat
      · subst hk0
        rw [if_neg (by omega), if_pos rfl, if_pos (by omega)]
        simp
      · by_cases hin : acc.fill.toNat + 1 ≤ k ∧ k < acc.fill.toNat + 1 + bs.length
        · rw [if_pos hin, if_pos (by omega), show k - acc.fill.toNat = k - (acc.fill.toNat + 1) + 1 by omega, List.getD_cons_succ]
        · rw [if_neg hin, if_neg hk0, if_neg (by omega)]

/-- The bytes that fill the block: one transform, of the block as it then stands in `P`. -/
theorem update_fills (acc : Accumulator) (bs : List Byte) (h : acc.fill.toNat + bs.length = 64) :
    (update acc bs).fill = 0 ∧
      (update acc bs).h = transform acc.h (update acc bs).p ∧
      ∀ k, k < 64 → byteAt (update acc bs).p k =
        if acc.fill.toNat ≤ k then bs.getD (k - acc.fill.toNat) 0 else byteAt acc.p k := by
  have hlt := acc.fill.isLt
  obtain ⟨cs, b, rfl⟩ : ∃ cs b, bs = cs ++ [b] := by
    rcases List.eq_nil_or_concat bs with rfl | ⟨cs, b, rfl⟩
    · simp at h; omega
    · exact ⟨cs, b, by simp⟩
  simp only [List.length_append, List.length_singleton] at h
  obtain ⟨hh, hfill, hp⟩ := update_short acc cs (by omega)
  have hfill' : (update acc cs).fill.toNat = 63 := by omega
  rw [update_append, update_cons, update_nil]
  refine ⟨?_, ?_, fun k hk => ?_⟩
  · apply BitVec.eq_of_toNat_eq
    rw [absorb_fill, hfill']
    rfl
  · rw [absorb_h, if_pos hfill', hh, absorb_p]
  · rw [absorb_p, byteAt_putByte _ _ _ hk, hp k hk, hfill']
    by_cases h63 : k = 63
    · subst h63
      rw [if_pos rfl, if_pos (by omega), List.getD_eq_getElem?_getD, List.getElem?_append_right (by omega)]
      simp [show 63 - acc.fill.toNat - cs.length = 0 by omega]
    · rw [if_neg h63]
      by_cases hge : acc.fill.toNat ≤ k
      · rw [if_pos (by omega), if_pos hge, List.getD_eq_getElem?_getD, List.getD_eq_getElem?_getD,
          List.getElem?_append_left (by omega)]
      · rw [if_neg (by omega), if_neg hge]

/-- A whole block from an empty buffer. -/
theorem update_block (acc : Accumulator) (bs : List Byte) (hf : acc.fill = 0) (hl : bs.length = 64) :
    (update acc bs).fill = 0 ∧
      (update acc bs).p = blockOf (fun k => bs.getD k 0) ∧
      (update acc bs).h = transform acc.h (blockOf fun k => bs.getD k 0) := by
  obtain ⟨h1, h2, h3⟩ := update_fills acc bs (by simp [hf, hl])
  have hp : (update acc bs).p = blockOf (fun k => bs.getD k 0) :=
    block_ext fun k hk => by rw [h3 k hk, byteAt_blockOf _ hk]; simp [hf]
  exact ⟨h1, hp, hp ▸ h2⟩

end Sys2Proof.Machine
end

