-- ==== Sys2Proof/Laws/State.lean ====
section
/-! SUPPORT. One lemma per field per update of the state, true by definition, so that no later proof unfolds a record update. -/

namespace Sys2Proof.Machine

/-! ## takeFault -/

@[simp] theorem takeFault_acc (f : FaultCode) (w : Word) (s : State) : (takeFault f w s).acc = s.acc := rfl
@[simp] theorem takeFault_sess (f : FaultCode) (w : Word) (s : State) : (takeFault f w s).sess = s.sess := rfl
@[simp] theorem takeFault_err (f : FaultCode) (w : Word) (s : State) : (takeFault f w s).err = some f := rfl
@[simp] theorem takeFault_ecmd (f : FaultCode) (w : Word) (s : State) : (takeFault f w s).ecmd = w := rfl
@[simp] theorem takeFault_addr (f : FaultCode) (w : Word) (s : State) : (takeFault f w s).addr = s.addr := rfl
@[simp] theorem takeFault_len (f : FaultCode) (w : Word) (s : State) : (takeFault f w s).len = s.len := rfl
@[simp] theorem takeFault_unit (f : FaultCode) (w : Word) (s : State) : (takeFault f w s).unit = s.unit := rfl
@[simp] theorem takeFault_mem (f : FaultCode) (w : Word) (s : State) : (takeFault f w s).mem = s.mem := rfl
@[simp] theorem takeFault_host (f : FaultCode) (w : Word) (s : State) : (takeFault f w s).host = s.host := rfl
@[simp] theorem takeFault_reads (f : FaultCode) (w : Word) (s : State) : (takeFault f w s).reads = s.reads := rfl
@[simp] theorem takeFault_draws (f : FaultCode) (w : Word) (s : State) : (takeFault f w s).draws = s.draws := rfl

/-! ## hardwareReset -/

@[simp] theorem hardwareReset_acc (s : State) : (hardwareReset s).acc = Accumulator.atReset := rfl
@[simp] theorem hardwareReset_sess (s : State) : (hardwareReset s).sess = .NONE := rfl
@[simp] theorem hardwareReset_err (s : State) : (hardwareReset s).err = none := rfl
@[simp] theorem hardwareReset_ecmd (s : State) : (hardwareReset s).ecmd = 0 := rfl
@[simp] theorem hardwareReset_addr (s : State) : (hardwareReset s).addr = 0 := rfl
@[simp] theorem hardwareReset_len (s : State) : (hardwareReset s).len = 0 := rfl
@[simp] theorem hardwareReset_unit (s : State) : (hardwareReset s).unit = TransformUnit.atReset := rfl
@[simp] theorem hardwareReset_mem (s : State) : (hardwareReset s).mem = s.mem := rfl
@[simp] theorem hardwareReset_host (s : State) : (hardwareReset s).host = s.host := rfl
@[simp] theorem hardwareReset_reads (s : State) : (hardwareReset s).reads = s.reads := rfl
@[simp] theorem hardwareReset_draws (s : State) : (hardwareReset s).draws = s.draws := rfl

/-! ## performStep -/

@[simp] theorem performStep_acc (i : Nat) (s : State) : (performStep i s).acc = s.acc := rfl
@[simp] theorem performStep_sess (i : Nat) (s : State) : (performStep i s).sess = s.sess := rfl
@[simp] theorem performStep_err (i : Nat) (s : State) : (performStep i s).err = s.err := rfl
@[simp] theorem performStep_ecmd (i : Nat) (s : State) : (performStep i s).ecmd = s.ecmd := rfl
@[simp] theorem performStep_addr (i : Nat) (s : State) : (performStep i s).addr = s.addr := rfl
@[simp] theorem performStep_len (i : Nat) (s : State) : (performStep i s).len = s.len := rfl
@[simp] theorem performStep_unit (i : Nat) (s : State) : (performStep i s).unit = s.unit.performStep (stepRow i) := rfl
@[simp] theorem performStep_mem (i : Nat) (s : State) : (performStep i s).mem = s.mem := rfl
@[simp] theorem performStep_host (i : Nat) (s : State) : (performStep i s).host = s.host := rfl
@[simp] theorem performStep_reads (i : Nat) (s : State) : (performStep i s).reads = s.reads := rfl
@[simp] theorem performStep_draws (i : Nat) (s : State) : (performStep i s).draws = s.draws := rfl

/-! ## finishTransform -/

@[simp] theorem finishTransform_acc (s : State) : (finishTransform s).acc = { s.acc with h := addBack s.acc.h s.unit } := rfl
@[simp] theorem finishTransform_sess (s : State) : (finishTransform s).sess = s.sess := rfl
@[simp] theorem finishTransform_err (s : State) : (finishTransform s).err = s.err := rfl
@[simp] theorem finishTransform_ecmd (s : State) : (finishTransform s).ecmd = s.ecmd := rfl
@[simp] theorem finishTransform_addr (s : State) : (finishTransform s).addr = s.addr := rfl
@[simp] theorem finishTransform_len (s : State) : (finishTransform s).len = s.len := rfl
@[simp] theorem finishTransform_unit (s : State) : (finishTransform s).unit = { s.unit with active := false } := rfl
@[simp] theorem finishTransform_mem (s : State) : (finishTransform s).mem = s.mem := rfl
@[simp] theorem finishTransform_host (s : State) : (finishTransform s).host = s.host := rfl
@[simp] theorem finishTransform_reads (s : State) : (finishTransform s).reads = s.reads := rfl
@[simp] theorem finishTransform_draws (s : State) : (finishTransform s).draws = s.draws := rfl

/-! ## xformEffect -/

@[simp] theorem xformEffect_acc (s : State) : (xformEffect s).acc = { s.acc with h := transform s.acc.h (s.mem.block (operandAddr s)) } := rfl
@[simp] theorem xformEffect_sess (s : State) : (xformEffect s).sess = s.sess := rfl
@[simp] theorem xformEffect_err (s : State) : (xformEffect s).err = s.err := rfl
@[simp] theorem xformEffect_ecmd (s : State) : (xformEffect s).ecmd = s.ecmd := rfl
@[simp] theorem xformEffect_addr (s : State) : (xformEffect s).addr = s.addr := rfl
@[simp] theorem xformEffect_len (s : State) : (xformEffect s).len = s.len := rfl
@[simp] theorem xformEffect_unit (s : State) : (xformEffect s).unit = s.unit := rfl
@[simp] theorem xformEffect_mem (s : State) : (xformEffect s).mem = s.mem := rfl
@[simp] theorem xformEffect_host (s : State) : (xformEffect s).host = s.host := rfl
@[simp] theorem xformEffect_reads (s : State) : (xformEffect s).reads = s.reads := rfl
@[simp] theorem xformEffect_draws (s : State) : (xformEffect s).draws = s.draws := rfl

/-! ## initEffect -/

@[simp] theorem initEffect_acc (s : State) : (initEffect s).acc = freshAccumulator s.acc.p := rfl
@[simp] theorem initEffect_sess (s : State) : (initEffect s).sess = .OPEN := rfl
@[simp] theorem initEffect_err (s : State) : (initEffect s).err = s.err := rfl
@[simp] theorem initEffect_ecmd (s : State) : (initEffect s).ecmd = s.ecmd := rfl
@[simp] theorem initEffect_addr (s : State) : (initEffect s).addr = s.addr := rfl
@[simp] theorem initEffect_len (s : State) : (initEffect s).len = s.len := rfl
@[simp] theorem initEffect_unit (s : State) : (initEffect s).unit = s.unit := rfl
@[simp] theorem initEffect_mem (s : State) : (initEffect s).mem = s.mem := rfl
@[simp] theorem initEffect_host (s : State) : (initEffect s).host = s.host := rfl
@[simp] theorem initEffect_reads (s : State) : (initEffect s).reads = s.reads := rfl
@[simp] theorem initEffect_draws (s : State) : (initEffect s).draws = s.draws := rfl

/-! ## absorbiEffect -/

@[simp] theorem absorbiEffect_acc (b : Byte) (s : State) : (absorbiEffect b s).acc = update s.acc [b] := rfl
@[simp] theorem absorbiEffect_sess (b : Byte) (s : State) : (absorbiEffect b s).sess = s.sess := rfl
@[simp] theorem absorbiEffect_err (b : Byte) (s : State) : (absorbiEffect b s).err = s.err := rfl
@[simp] theorem absorbiEffect_ecmd (b : Byte) (s : State) : (absorbiEffect b s).ecmd = s.ecmd := rfl
@[simp] theorem absorbiEffect_addr (b : Byte) (s : State) : (absorbiEffect b s).addr = s.addr := rfl
@[simp] theorem absorbiEffect_len (b : Byte) (s : State) : (absorbiEffect b s).len = s.len := rfl
@[simp] theorem absorbiEffect_unit (b : Byte) (s : State) : (absorbiEffect b s).unit = s.unit := rfl
@[simp] theorem absorbiEffect_mem (b : Byte) (s : State) : (absorbiEffect b s).mem = s.mem := rfl
@[simp] theorem absorbiEffect_host (b : Byte) (s : State) : (absorbiEffect b s).host = s.host := rfl
@[simp] theorem absorbiEffect_reads (b : Byte) (s : State) : (absorbiEffect b s).reads = s.reads := rfl
@[simp] theorem absorbiEffect_draws (b : Byte) (s : State) : (absorbiEffect b s).draws = s.draws := rfl

/-! ## absorbEffect -/

@[simp] theorem absorbEffect_acc (s : State) : (absorbEffect s).acc = update s.acc (s.mem.slice (operandAddr s) (operandLen s)) := rfl
@[simp] theorem absorbEffect_sess (s : State) : (absorbEffect s).sess = s.sess := rfl
@[simp] theorem absorbEffect_err (s : State) : (absorbEffect s).err = s.err := rfl
@[simp] theorem absorbEffect_ecmd (s : State) : (absorbEffect s).ecmd = s.ecmd := rfl
@[simp] theorem absorbEffect_addr (s : State) : (absorbEffect s).addr = s.addr := rfl
@[simp] theorem absorbEffect_len (s : State) : (absorbEffect s).len = s.len := rfl
@[simp] theorem absorbEffect_unit (s : State) : (absorbEffect s).unit = s.unit := rfl
@[simp] theorem absorbEffect_mem (s : State) : (absorbEffect s).mem = s.mem := rfl
@[simp] theorem absorbEffect_host (s : State) : (absorbEffect s).host = s.host := rfl
@[simp] theorem absorbEffect_reads (s : State) : (absorbEffect s).reads = s.reads := rfl
@[simp] theorem absorbEffect_draws (s : State) : (absorbEffect s).draws = s.draws := rfl

/-! ## finalEffect -/

@[simp] theorem finalEffect_acc (s : State) : (finalEffect s).acc = finalize s.acc (s.mem.slice (operandAddr s) (operandLen s)) := rfl
@[simp] theorem finalEffect_sess (s : State) : (finalEffect s).sess = .DONE := rfl
@[simp] theorem finalEffect_err (s : State) : (finalEffect s).err = s.err := rfl
@[simp] theorem finalEffect_ecmd (s : State) : (finalEffect s).ecmd = s.ecmd := rfl
@[simp] theorem finalEffect_addr (s : State) : (finalEffect s).addr = s.addr := rfl
@[simp] theorem finalEffect_len (s : State) : (finalEffect s).len = s.len := rfl
@[simp] theorem finalEffect_unit (s : State) : (finalEffect s).unit = s.unit := rfl
@[simp] theorem finalEffect_mem (s : State) : (finalEffect s).mem = s.mem := rfl
@[simp] theorem finalEffect_host (s : State) : (finalEffect s).host = s.host := rfl
@[simp] theorem finalEffect_reads (s : State) : (finalEffect s).reads = s.reads := rfl
@[simp] theorem finalEffect_draws (s : State) : (finalEffect s).draws = s.draws := rfl

/-! ## digestEffect -/

@[simp] theorem digestEffect_acc (s : State) : (digestEffect s).acc = computeDigest s.mem (operandAddr s) (operandLen s) s.acc := rfl
@[simp] theorem digestEffect_sess (s : State) : (digestEffect s).sess = .DONE := rfl
@[simp] theorem digestEffect_err (s : State) : (digestEffect s).err = s.err := rfl
@[simp] theorem digestEffect_ecmd (s : State) : (digestEffect s).ecmd = s.ecmd := rfl
@[simp] theorem digestEffect_addr (s : State) : (digestEffect s).addr = s.addr := rfl
@[simp] theorem digestEffect_len (s : State) : (digestEffect s).len = s.len := rfl
@[simp] theorem digestEffect_unit (s : State) : (digestEffect s).unit = s.unit := rfl
@[simp] theorem digestEffect_mem (s : State) : (digestEffect s).mem = s.mem := rfl
@[simp] theorem digestEffect_host (s : State) : (digestEffect s).host = s.host := rfl
@[simp] theorem digestEffect_reads (s : State) : (digestEffect s).reads = s.reads := rfl
@[simp] theorem digestEffect_draws (s : State) : (digestEffect s).draws = s.draws := rfl

/-! ## writeBack -/

@[simp] theorem writeBack_acc (s : State) : (writeBack s).acc = s.acc := rfl
@[simp] theorem writeBack_sess (s : State) : (writeBack s).sess = s.sess := rfl
@[simp] theorem writeBack_err (s : State) : (writeBack s).err = s.err := rfl
@[simp] theorem writeBack_ecmd (s : State) : (writeBack s).ecmd = s.ecmd := rfl
@[simp] theorem writeBack_addr (s : State) : (writeBack s).addr = s.addr := rfl
@[simp] theorem writeBack_len (s : State) : (writeBack s).len = s.len := rfl
@[simp] theorem writeBack_unit (s : State) : (writeBack s).unit = s.unit := rfl
@[simp] theorem writeBack_mem (s : State) : (writeBack s).mem = s.mem.writeBytes (operandAddr s + 4) (digestBytes s.acc.h) := rfl
@[simp] theorem writeBack_host (s : State) : (writeBack s).host = s.host := rfl
@[simp] theorem writeBack_reads (s : State) : (writeBack s).reads = s.reads := rfl
@[simp] theorem writeBack_draws (s : State) : (writeBack s).draws = s.draws := rfl

/-! ## returnRead -/

@[simp] theorem returnRead_acc (v : Word) (s : State) : (returnRead v s).acc = s.acc := rfl
@[simp] theorem returnRead_sess (v : Word) (s : State) : (returnRead v s).sess = s.sess := rfl
@[simp] theorem returnRead_err (v : Word) (s : State) : (returnRead v s).err = s.err := rfl
@[simp] theorem returnRead_ecmd (v : Word) (s : State) : (returnRead v s).ecmd = s.ecmd := rfl
@[simp] theorem returnRead_addr (v : Word) (s : State) : (returnRead v s).addr = s.addr := rfl
@[simp] theorem returnRead_len (v : Word) (s : State) : (returnRead v s).len = s.len := rfl
@[simp] theorem returnRead_unit (v : Word) (s : State) : (returnRead v s).unit = s.unit := rfl
@[simp] theorem returnRead_mem (v : Word) (s : State) : (returnRead v s).mem = s.mem := rfl
@[simp] theorem returnRead_host (v : Word) (s : State) : (returnRead v s).host = s.host := rfl
@[simp] theorem returnRead_reads (v : Word) (s : State) : (returnRead v s).reads = v :: s.reads := rfl
@[simp] theorem returnRead_draws (v : Word) (s : State) : (returnRead v s).draws = s.draws := rfl

/-! ## beginTransform -/

@[simp] theorem beginTransform_acc (blk : Block) (s : State) : (beginTransform blk s).acc = s.acc := rfl
@[simp] theorem beginTransform_sess (blk : Block) (s : State) : (beginTransform blk s).sess = s.sess := rfl
@[simp] theorem beginTransform_err (blk : Block) (s : State) : (beginTransform blk s).err = s.err := rfl
@[simp] theorem beginTransform_ecmd (blk : Block) (s : State) : (beginTransform blk s).ecmd = s.ecmd := rfl
@[simp] theorem beginTransform_addr (blk : Block) (s : State) : (beginTransform blk s).addr = s.addr := rfl
@[simp] theorem beginTransform_len (blk : Block) (s : State) : (beginTransform blk s).len = s.len := rfl
@[simp] theorem beginTransform_unit (blk : Block) (s : State) : (beginTransform blk s).unit = TransformUnit.seed s.acc.h blk := rfl
@[simp] theorem beginTransform_mem (blk : Block) (s : State) : (beginTransform blk s).mem = s.mem := rfl
@[simp] theorem beginTransform_host (blk : Block) (s : State) : (beginTransform blk s).host = s.host := rfl
@[simp] theorem beginTransform_reads (blk : Block) (s : State) : (beginTransform blk s).reads = s.reads := rfl
@[simp] theorem beginTransform_draws (blk : Block) (s : State) : (beginTransform blk s).draws = s.draws := rfl

/-! ## The transform unit -/

@[simp] theorem TransformUnit.performStep_a (row : StepRow) (u : TransformUnit) : (u.performStep row).a = u.d := rfl
@[simp] theorem TransformUnit.performStep_b (row : StepRow) (u : TransformUnit) : (u.performStep row).b = stepNew row u := rfl
@[simp] theorem TransformUnit.performStep_c (row : StepRow) (u : TransformUnit) : (u.performStep row).c = u.b := rfl
@[simp] theorem TransformUnit.performStep_d (row : StepRow) (u : TransformUnit) : (u.performStep row).d = u.c := rfl
@[simp] theorem TransformUnit.performStep_x (row : StepRow) (u : TransformUnit) : (u.performStep row).x = u.x := rfl
@[simp] theorem TransformUnit.performStep_step (row : StepRow) (u : TransformUnit) : (u.performStep row).step = u.step + 1 := rfl
@[simp] theorem TransformUnit.performStep_active (row : StepRow) (u : TransformUnit) : (u.performStep row).active = u.active := rfl

@[simp] theorem TransformUnit.seed_a (h : HWords) (blk : Block) : (TransformUnit.seed h blk).a = h[0] := rfl
@[simp] theorem TransformUnit.seed_b (h : HWords) (blk : Block) : (TransformUnit.seed h blk).b = h[1] := rfl
@[simp] theorem TransformUnit.seed_c (h : HWords) (blk : Block) : (TransformUnit.seed h blk).c = h[2] := rfl
@[simp] theorem TransformUnit.seed_d (h : HWords) (blk : Block) : (TransformUnit.seed h blk).d = h[3] := rfl
@[simp] theorem TransformUnit.seed_x (h : HWords) (blk : Block) : (TransformUnit.seed h blk).x = messageWords blk := rfl
@[simp] theorem TransformUnit.seed_step (h : HWords) (blk : Block) : (TransformUnit.seed h blk).step = 0 := rfl
@[simp] theorem TransformUnit.seed_active (h : HWords) (blk : Block) : (TransformUnit.seed h blk).active = true := rfl

/-! ## The accumulator -/

@[simp] theorem freshAccumulator_h (p : Block) : (freshAccumulator p).h = initialH := rfl
@[simp] theorem freshAccumulator_p (p : Block) : (freshAccumulator p).p = p := rfl
@[simp] theorem freshAccumulator_c0 (p : Block) : (freshAccumulator p).c0 = 0 := rfl
@[simp] theorem freshAccumulator_c1 (p : Block) : (freshAccumulator p).c1 = 0 := rfl
@[simp] theorem freshAccumulator_fill (p : Block) : (freshAccumulator p).fill = 0 := rfl

end Sys2Proof.Machine
end

