-- ==== Sys2Proof/Laws/Command.lean ====
section
/-! SUPPORT. Everything a command can do, said once (60_exceptions.md rules R176 to R178), and what each check decides. -/

namespace Sys2Proof.Machine

variable {w : Word} {check : State → Option FaultCode} {effect : State → State} {s t : State}

/-- A halted engine discards the command (rule R177). -/
theorem runCommand_halted (h : s.err ≠ none) : runCommand w check effect s = .next s := if_pos h

/-- A check that applies: the fault is taken and nothing else happens (rule R176). -/
theorem runCommand_fault {f : FaultCode} (h : s.err = none) (hc : check s = some f) :
    runCommand w check effect s = .next (takeFault f w s) := by
  rw [runCommand, if_neg (by simp [h]), hc]

/-- No check applies: the command has its effect. -/
theorem runCommand_effect (h : s.err = none) (hc : check s = none) : runCommand w check effect s = .next (effect s) := by
  rw [runCommand, if_neg (by simp [h]), hc]

/-- If a command answers a next state, one of these three holds. -/
theorem runCommand_cases (h : runCommand w check effect s = .next t) :
    (s.err ≠ none ∧ t = s) ∨
      (s.err = none ∧ ∃ f, check s = some f ∧ t = takeFault f w s) ∨
      (s.err = none ∧ check s = none ∧ t = effect s) := by
  by_cases he : s.err = none
  · cases hc : check s with
    | some f =>
      rw [runCommand_fault he hc] at h
      exact .inr (.inl ⟨he, f, rfl, by cases h; rfl⟩)
    | none =>
      rw [runCommand_effect he hc] at h
      exact .inr (.inr ⟨he, rfl, by cases h; rfl⟩)
  · rw [runCommand_halted he] at h
    exact .inl ⟨he, by cases h; rfl⟩

/-- A command always answers a next state. -/
theorem runCommand_next (w : Word) (check : State → Option FaultCode) (effect : State → State) (s : State) :
    ∃ t, runCommand w check effect s = .next t := by
  by_cases he : s.err = none
  · cases hc : check s with
    | some f => exact ⟨_, runCommand_fault he hc⟩
    | none => exact ⟨_, runCommand_effect he hc⟩
  · exact ⟨_, runCommand_halted he⟩

/-! ## The checks -/

theorem outOfRange_iff (addr extent : Nat) : outOfRange addr extent = true ↔ 2 ^ 32 < addr + extent := by
  simp [outOfRange, Config.memorySize]

theorem checkSession_eq_none : checkSession s = none ↔ s.sess = .OPEN := by
  unfold checkSession; split <;> simp_all

theorem checkSession_eq_some (h : s.sess ≠ .OPEN) : checkSession s = some .noSession := if_neg h

theorem checkRange_eq_none {extent : Nat} : checkRange extent s = none ↔ s.addr.toNat + extent ≤ 2 ^ 32 := by
  unfold checkRange operandAddr
  split
  · next h => simpa using (outOfRange_iff _ _).1 h
  · next h => simpa using fun h' => h ((outOfRange_iff _ _).2 h')

theorem checkRange_eq_some {extent : Nat} (h : 2 ^ 32 < s.addr.toNat + extent) : checkRange extent s = some .rangeError :=
  if_pos ((outOfRange_iff _ _).2 h)

theorem checkTail_eq_none : checkTail s = none ↔ s.acc.fill = 0 ∧ s.len.toNat ≤ 63 := by
  unfold checkTail operandLen
  split
  · next h => simp only [reduceCtorEq, false_iff]; rintro ⟨h1, h2⟩; rcases h with h | h <;> [exact h h1; omega]
  · next h => simpa using h

theorem checkTail_eq_some (h : s.acc.fill ≠ 0 ∨ 63 < s.len.toNat) : checkTail s = some .badTail := if_pos h

theorem checkLength_eq_none : checkLength s = none ↔ 20 ≤ s.len.toNat := by
  unfold checkLength operandLen
  split <;> simp <;> omega

theorem checkLength_eq_some (h : s.len.toNat < 20) : checkLength s = some .shortContainer := if_pos h

theorem checkAbsorb_eq_none : checkAbsorb s = none ↔ s.sess = .OPEN ∧ s.addr.toNat + s.len.toNat ≤ 2 ^ 32 := by
  rw [checkAbsorb, Option.or_eq_none_iff, checkSession_eq_none, checkRange_eq_none, operandLen]

theorem checkXform_eq_none : checkXform s = none ↔ s.sess = .OPEN ∧ s.addr.toNat + 64 ≤ 2 ^ 32 := by
  rw [checkXform, Option.or_eq_none_iff, checkSession_eq_none, checkRange_eq_none]

theorem checkFinal_eq_none :
    checkFinal s = none ↔
      s.sess = .OPEN ∧ (s.acc.fill = 0 ∧ s.len.toNat ≤ 63) ∧ s.addr.toNat + s.len.toNat ≤ 2 ^ 32 := by
  rw [checkFinal, Option.or_eq_none_iff, Option.or_eq_none_iff, checkSession_eq_none, checkTail_eq_none, checkRange_eq_none,
    operandLen]

theorem checkContainer_eq_none :
    checkContainer s = none ↔ 20 ≤ s.len.toNat ∧ s.addr.toNat + s.len.toNat ≤ 2 ^ 32 := by
  rw [checkContainer, Option.or_eq_none_iff, checkLength_eq_none, checkRange_eq_none, operandLen]

/-! ## The step rows -/

/-- The instruction a step code decodes to performs that step and nothing else (rule R93). -/
theorem exec_decodeStep (i : BitVec 6) (s : State) : exec (decodeStep i) s = .next (performStep i.toNat s) := by
  have h : ∀ n, n < 64 → exec (decodeStep (BitVec.ofNat 6 n)) s = .next (performStep n s) := by
    intro n hn
    interval_cases n <;> rfl
  have := h i.toNat i.isLt
  rwa [BitVec.ofNat_toNat, BitVec.setWidth_eq] at this

end Sys2Proof.Machine
end

