-- ==== Sys2Proof/Laws/Finalization.lean ====
section
/-! SUPPORT. What finalization and the digest computation leave, part by part (42_finalization.md rules R135 to R138,
43_sign_apply.md rule R151). -/

namespace Sys2Proof.Machine

theorem append_getD (bs cs : List Byte) (k : Nat) :
    (bs ++ cs).getD k 0 = if k < bs.length then bs.getD k 0 else cs.getD (k - bs.length) 0 := by
  simp only [List.getD_eq_getElem?_getD, List.getElem?_append]
  split <;> rfl

theorem le32_getD (x : Word) (k : Nat) : (le32 x).getD k 0 = le32Byte x k := rfl

theorem fill_eq_zero {acc : Accumulator} (h : acc.fill = 0) : acc.fill.toNat = 0 := by rw [h]; rfl

/-- Case A (rules R135, R136): the block of tail and padding fills `P` and is transformed, then the synthetic block directly. -/
theorem caseA_spec (acc : Accumulator) (tail : List Byte) (n : Word) (hf : acc.fill = 0) (h1 : 56 ≤ tail.length)
    (h2 : tail.length ≤ 63) :
    (caseA acc tail n).h = transform (transform acc.h (caseABlock tail)) (syntheticBlock n) ∧
      (caseA acc tail n).p = caseABlock tail ∧
      (caseA acc tail n).fill = 0 ∧
      (caseA acc tail n).c0.toNat = (acc.c0.toNat + 512) % 2 ^ 32 ∧
      (caseA acc tail n).count = (acc.count + 512) % 2 ^ 64 := by
  have hlen : (tail ++ padding (64 - tail.length)).length = 64 := by
    rw [List.length_append, padding_length (by omega)]; omega
  obtain ⟨hfill, hp, hh⟩ := update_block acc (tail ++ padding (64 - tail.length)) hf hlen
  have hblk : (blockOf fun k => (tail ++ padding (64 - tail.length)).getD k 0) = caseABlock tail :=
    blockOf_congr fun k _ => by
      rw [append_getD, padding_getD]
      split
      · rfl
      · split
        · rw [if_pos (by omega)]
        · rw [if_neg (by omega)]
  rw [hblk] at hp hh
  have hc0 := update_c0 acc (tail ++ padding (64 - tail.length))
  have hcount := update_count acc (tail ++ padding (64 - tail.length))
  rw [hlen] at hc0 hcount
  unfold caseA
  dsimp only
  rw [← update_append]
  refine ⟨?_, hp, hfill, ?_, ?_⟩
  · rw [hh]
  · rw [hc0]
  · exact hcount

/-- Case B (rules R137, R138): count and tail through `absorb`, padding and marker directly, one direct transform. -/
theorem caseB_spec (acc : Accumulator) (tail : List Byte) (n : Word) (hf : acc.fill = 0) (h : tail.length ≤ 55) :
    (caseB acc tail n).h = transform acc.h (caseBBlock tail n) ∧
      (caseB acc tail n).p = caseBBlock tail n ∧
      (caseB acc tail n).fill.toNat = tail.length + 4 ∧
      (caseB acc tail n).c0.toNat = (acc.c0.toNat + 8 * (tail.length + 4)) % 2 ^ 32 ∧
      (caseB acc tail n).count = (acc.count + 8 * (tail.length + 4)) % 2 ^ 64 := by
  have hf0 := fill_eq_zero hf
  have hlen : (le32 n ++ tail).length = tail.length + 4 := by rw [List.length_append, le32_length]; omega
  obtain ⟨hh, hfill, hp⟩ := update_short acc (le32 n ++ tail) (by omega)
  have hblk : padBuffer (update acc (le32 n ++ tail)).p tail.length n = caseBBlock tail n := by
    refine block_ext fun k hk => ?_
    rw [padBuffer, caseBBlock, byteAt_blockOf _ hk, byteAt_blockOf _ hk]
    by_cases h4 : k < 4
    · rw [if_pos (by omega), if_pos h4, hp k hk, if_pos (by omega), append_getD, le32_length, if_pos (by omega), hf0]
      rfl
    · rw [if_neg h4]
      by_cases ht : k < tail.length + 4
      · rw [if_pos ht, if_pos ht, hp k hk, if_pos (by omega), append_getD, le32_length, if_neg (by omega), hf0]
        rfl
      · rw [if_neg ht, if_neg ht]
        by_cases h80 : k = tail.length + 4
        · subst h80
          rw [if_pos (by omega), if_pos rfl, padding_getD, if_pos (by omega)]
        · rw [if_neg h80]
          by_cases h60 : k < 60
          · rw [if_pos h60, if_pos h60, padding_getD, if_neg (by omega)]
          · rw [if_neg h60, if_neg h60]
  have hc0 := update_c0 acc (le32 n ++ tail)
  have hcount := update_count acc (le32 n ++ tail)
  rw [hlen] at hc0 hcount hfill
  unfold caseB
  dsimp only
  rw [← update_append, hblk]
  refine ⟨?_, rfl, by omega, ?_, ?_⟩
  · rw [hh]
  · rw [hc0]
  · exact hcount

/-- Complete blocks from an empty buffer: one transform each, in order, and the buffer is empty again (rule R112). -/
theorem update_blocks (acc : Accumulator) (bs : List Byte) (n : Nat) (hf : acc.fill = 0) (hl : bs.length = 64 * n) :
    (update acc bs).fill = 0 ∧
      (update acc bs).h = ((List.range n).map (payloadBlock bs)).foldl transform acc.h := by
  induction n generalizing acc bs with
  | zero =>
    have : bs = [] := List.eq_nil_of_length_eq_zero (by omega)
    subst this
    exact ⟨hf, rfl⟩
  | succ n ih =>
    obtain ⟨hfill, -, hh⟩ := update_block acc (bs.take 64) hf (by rw [List.length_take]; omega)
    obtain ⟨hfill', hh'⟩ := ih (update acc (bs.take 64)) (bs.drop 64) hfill (by rw [List.length_drop]; omega)
    rw [← update_append, List.take_append_drop] at hfill' hh'
    refine ⟨hfill', hh'.trans ?_⟩
    rw [List.range_succ_eq_map, List.map_cons, List.foldl_cons, List.map_map, hh]
    have h0 : (blockOf fun k => (bs.take 64).getD k 0) = payloadBlock bs 0 :=
      blockOf_congr fun k hk => by
        simp [List.getD_eq_getElem?_getD, hk]
    have hs : payloadBlock (bs.drop 64) = payloadBlock bs ∘ Nat.succ := by
      funext i
      exact blockOf_congr fun k _ => by
        simp only [List.getD_eq_getElem?_getD, List.getElem?_drop]
        congr 2
        omega
    rw [h0, hs]

/-- Finalization as one formula: the last block or two (rule R132). -/
theorem finalize_h (acc : Accumulator) (tail : List Byte) (hf : acc.fill = 0) (h : tail.length ≤ 63) :
    (finalize acc tail).h = (lastBlocks tail (bitCount acc.c0 tail.length)).foldl transform acc.h := by
  unfold finalize lastBlocks
  by_cases h56 : 56 ≤ tail.length
  · rw [if_pos h56, if_pos h56]
    exact (caseA_spec acc tail _ hf h56 h).1
  · rw [if_neg h56, if_neg h56]
    exact (caseB_spec acc tail _ hf (by omega)).1

/-- The digest computation cut where the spec cuts it (rule R151). -/
theorem computeDigest_eq (m : Memory) (base length : Nat) (acc : Accumulator) :
    computeDigest m base length acc =
      finalize (update (freshAccumulator acc.p) (m.slice (base + 20) (64 * ((length - 20) / 64))))
        (m.slice (base + 20 + 64 * ((length - 20) / 64)) ((length - 20) % 64)) := by
  unfold computeDigest
  dsimp only
  have : length - 20 - (length - 20) % 64 = 64 * ((length - 20) / 64) := by omega
  rw [this]

/-- The accumulator's invariants survive finalization (rule R25). -/
theorem finalize_wf {acc : Accumulator} (h : acc.wf) (tail : List Byte) : (finalize acc tail).wf := by
  unfold finalize
  split
  · exact update_wf (update_wf h _) _
  · exact update_wf (update_wf h _) _

theorem freshAccumulator_wf (p : Block) : (freshAccumulator p).wf := by simp [Accumulator.wf, freshAccumulator]

theorem computeDigest_wf (m : Memory) (base length : Nat) (acc : Accumulator) : (computeDigest m base length acc).wf := by
  rw [computeDigest_eq]
  exact finalize_wf (update_wf (freshAccumulator_wf _) _) _

end Sys2Proof.Machine
end

