-- ==== Sys2Proof/Laws/SignApply.lean ====
section
/-! SUPPORT. ComputeDigest and the write-back (43_sign_apply.md rules R151, R153, R155). -/

namespace Sys2Proof.Machine

/-- An accumulator is its words, its block, its count and its fill. -/
theorem Accumulator.ext_of_count {x y : Accumulator} (hh : x.h = y.h) (hp : x.p = y.p) (hc : x.count = y.count)
    (hf : x.fill.toNat = y.fill.toNat) : x = y := by
  have hx := x.c0.isLt
  have hy := y.c0.isLt
  simp only [Accumulator.count] at hc
  have h0 : x.c0 = y.c0 := BitVec.eq_of_toNat_eq (by omega)
  have h1 : x.c1 = y.c1 := BitVec.eq_of_toNat_eq (by omega)
  have h2 := BitVec.eq_of_toNat_eq hf
  cases x; cases y; simp_all

/-- Finalization's result depends on the tail, the words, the count and the low half, not on what `P` held (rule R43). -/
theorem finalize_congr {x y : Accumulator} (tail : List Byte) (hx : x.fill = 0) (hy : y.fill = 0) (hl : tail.length ≤ 63)
    (hh : x.h = y.h) (h0 : x.c0 = y.c0) (hc : x.count = y.count) : finalize x tail = finalize y tail := by
  unfold finalize
  rw [h0]
  by_cases h56 : 56 ≤ tail.length
  · rw [if_pos h56, if_pos h56]
    obtain ⟨a1, a2, a3, _, a5⟩ := caseA_spec x tail (bitCount y.c0 tail.length) hx h56 hl
    obtain ⟨b1, b2, b3, _, b5⟩ := caseA_spec y tail (bitCount y.c0 tail.length) hy h56 hl
    apply Accumulator.ext_of_count
    · rw [a1, b1, hh]
    · rw [a2, b2]
    · rw [a5, b5, hc]
    · rw [a3, b3]
  · rw [if_neg h56, if_neg h56]
    obtain ⟨a1, a2, a3, _, a5⟩ := caseB_spec x tail (bitCount y.c0 tail.length) hx (by omega)
    obtain ⟨b1, b2, b3, _, b5⟩ := caseB_spec y tail (bitCount y.c0 tail.length) hy (by omega)
    apply Accumulator.ext_of_count
    · rw [a1, b1, hh]
    · rw [a2, b2]
    · rw [a5, b5, hc]
    · rw [a3, b3]

/-- ComputeDigest reads the payload bytes and nothing else. -/
theorem computeDigest_congr {m n : Memory} {a b len : Nat} (x y : Accumulator)
    (h : ∀ i, i < len - 20 → m.read (a + 20 + i) = n.read (b + 20 + i)) : computeDigest m a len x = computeDigest n b len y := by
  rw [computeDigest_eq, computeDigest_eq]
  rw [Memory.slice_congr (n := n) (b := b + 20) fun i hi => h i (by omega)]
  rw [Memory.slice_congr (m := m) (n := n) (b := b + 20 + 64 * ((len - 20) / 64)) fun i hi => by
    have := h (64 * ((len - 20) / 64) + i) (by omega)
    rwa [← Nat.add_assoc, ← Nat.add_assoc] at this]
  have hb : (n.slice (b + 20) (64 * ((len - 20) / 64))).length = 64 * ((len - 20) / 64) := Memory.slice_length ..
  obtain ⟨fx, hx⟩ := update_blocks (freshAccumulator x.p) _ _ rfl hb
  obtain ⟨fy, hy⟩ := update_blocks (freshAccumulator y.p) _ _ rfl hb
  refine finalize_congr _ fx fy (by rw [Memory.slice_length]; omega) (by rw [hx, hy]; rfl) (BitVec.eq_of_toNat_eq ?_) ?_
  · rw [update_c0, update_c0]; rfl
  · rw [update_count, update_count]; rfl

/-- Digest byte `4j + k` is byte `k` of word `j` (10_state.md rule R38). -/
theorem digestBytes_getD (h : HWords) (j : Fin 4) {k : Nat} (hk : k < 4) :
    (digestBytes h).getD (4 * j.val + k) 0 = (h[j]).extractLsb' (8 * k) 8 := by
  fin_cases j <;> interval_cases k <;> rfl

/-- The same bytes written twice. -/
theorem Memory.writeBytes_again {m : Memory} (hm : m.wf) {a : Nat} (bs : List Byte) (h : a + bs.length ≤ Config.memorySize) :
    (m.writeBytes a bs).writeBytes a bs = m.writeBytes a bs := by
  have hm' := Memory.writeBytes_wf hm bs h
  refine Memory.ext (Memory.writeBytes_wf hm' bs h) hm' fun b => ?_
  by_cases hb : b < a ∨ a + bs.length ≤ b
  · rw [Memory.read_writeBytes_outside _ _ hb]
  · obtain ⟨i, rfl, hi⟩ : ∃ i, b = a + i ∧ i < bs.length := ⟨b - a, by omega, by omega⟩
    rw [Memory.read_writeBytes_inside hm' bs h hi, Memory.read_writeBytes_inside hm bs h hi]

end Sys2Proof.Machine
end

