-- ==== Sys2Proof/Laws/Exec.lean ====
section
/-! SUPPORT. `exec` taken apart once: what a command is, what a step is, and everything either can do. -/

namespace Sys2Proof.Machine

/-- The effect of a command whose checks pass; a step has none of these. -/
def effectOf (i : Instr) (s : State) : State :=
  match i with
  | .init => initEffect s
  | .absorbi b => absorbiEffect b s
  | .absorb => absorbEffect s
  | .xform => xformEffect s
  | .final => finalEffect s
  | .digest => digestEffect s
  | .sign => signEffect s
  | _ => s

variable {i : Instr} {w : Word} {n : BitVec 6} {s t : State}

/-! ## The checks are the order of rule R178 -/

theorem checkInit_eq (s : State) : checkInit s = firstFault .init s := by
  simp [checkInit, firstFault, needsSession, extentOf]

theorem checkSession_eq (b : Byte) (s : State) : checkSession s = firstFault (.absorbi b) s := by
  by_cases h : s.sess = .OPEN <;> simp [checkSession, firstFault, needsSession, extentOf, h]

theorem checkRange_eq (extent : Nat) (s : State) :
    checkRange extent s = if 2 ^ 32 < s.addr.toNat + extent then some .rangeError else none := by
  simp [checkRange, outOfRange, operandAddr, Config.memorySize]

theorem checkAbsorb_eq (s : State) : checkAbsorb s = firstFault .absorb s := by
  rw [checkAbsorb, checkRange_eq, checkSession, operandLen]
  by_cases h : s.sess = .OPEN <;> simp [firstFault, needsSession, extentOf, h]

theorem checkXform_eq (s : State) : checkXform s = firstFault .xform s := by
  rw [checkXform, checkRange_eq, checkSession]
  by_cases h : s.sess = .OPEN <;> simp [firstFault, needsSession, extentOf, h]

theorem checkFinal_eq (s : State) : checkFinal s = firstFault .final s := by
  rw [checkFinal, checkRange_eq, checkSession, checkTail, operandLen]
  by_cases h : s.sess = .OPEN
  · by_cases h2 : s.acc.fill ≠ 0 ∨ 63 < s.len.toNat
    · simp only [firstFault, needsSession, extentOf, h, gt_iff_lt, h2, if_true]; simp
    · simp only [firstFault, needsSession, extentOf, h, gt_iff_lt, h2, if_false]; simp
  · simp [firstFault, needsSession, h]

theorem checkContainer_eq (hi : i = .digest ∨ i = .sign) (s : State) : checkContainer s = firstFault i s := by
  rw [checkContainer, checkRange_eq, checkLength, operandLen]
  rcases hi with rfl | rfl <;> by_cases h : s.len.toNat < 20 <;> simp [firstFault, needsSession, extentOf, h]

/-! ## What an instruction is -/

/-- A command runs in the frame of rule R178 with its own word, checks and effect. -/
theorem exec_command (h : encode i = .command w) (s : State) :
    exec i s = runCommand w (firstFault i) (effectOf i) s := by
  cases i
  case init => cases h; rw [← show checkInit = firstFault .init from funext checkInit_eq]; rfl
  case absorbi b => cases h; rw [← show checkSession = firstFault (.absorbi b) from funext (checkSession_eq b)]; rfl
  case absorb => cases h; rw [← show checkAbsorb = firstFault .absorb from funext checkAbsorb_eq]; rfl
  case xform => cases h; rw [← show checkXform = firstFault .xform from funext checkXform_eq]; rfl
  case final => cases h; rw [← show checkFinal = firstFault .final from funext checkFinal_eq]; rfl
  case digest => cases h; rw [← show checkContainer = firstFault .digest from funext (checkContainer_eq (.inl rfl))]; rfl
  case sign => cases h; rw [← show checkContainer = firstFault .sign from funext (checkContainer_eq (.inr rfl))]; rfl
  all_goals cases h

/-- A step performs its own row (rule R93). -/
theorem exec_step (h : encode i = .step n) (s : State) : exec i s = .next (performStep n.toNat s) := by
  cases i <;> cases h <;> rfl

/-- Everything an instruction can do. -/
theorem exec_cases (h : exec i s = .next t) :
    (∃ w, encode i = .command w ∧
      ((s.err ≠ none ∧ t = s) ∨
        (s.err = none ∧ ∃ f, firstFault i s = some f ∧ t = takeFault f w s) ∨
        (s.err = none ∧ firstFault i s = none ∧ t = effectOf i s))) ∨
      (∃ n, encode i = .step n ∧ t = performStep n.toNat s) := by
  cases hc : encode i with
  | command w => rw [exec_command hc] at h; exact .inl ⟨w, rfl, runCommand_cases h⟩
  | step n => rw [exec_step hc] at h; cases h; exact .inr ⟨n, rfl, rfl⟩

/-! ## What an effect leaves -/

theorem effectOf_frame (i : Instr) (s : State) :
    (effectOf i s).err = s.err ∧ (effectOf i s).ecmd = s.ecmd ∧ (effectOf i s).addr = s.addr ∧ (effectOf i s).len = s.len ∧
      (effectOf i s).unit = s.unit ∧ (effectOf i s).host = s.host ∧ (effectOf i s).reads = s.reads ∧
      (effectOf i s).draws = s.draws := by
  cases i <;> exact ⟨rfl, rfl, rfl, rfl, rfl, rfl, rfl, rfl⟩

theorem effectOf_sess (i : Instr) (s : State) : (effectOf i s).sess = sessionAfter i s.sess := by
  cases i <;> rfl

theorem effectOf_mem (hi : i ≠ .sign) (s : State) : (effectOf i s).mem = s.mem := by
  cases i
  case sign => exact absurd rfl hi
  all_goals rfl

/-! The effect of each command by name. Rewrite with these, then with the field lemmas of Laws/State.lean: a proof by plain
unfolding can send the kernel into the 64 steps of a transform. -/

theorem effectOf_init (s : State) : effectOf .init s = initEffect s := rfl
theorem effectOf_absorbi (b : Byte) (s : State) : effectOf (.absorbi b) s = absorbiEffect b s := rfl
theorem effectOf_absorb (s : State) : effectOf .absorb s = absorbEffect s := rfl
theorem effectOf_xform (s : State) : effectOf .xform s = xformEffect s := rfl
theorem effectOf_final (s : State) : effectOf .final s = finalEffect s := rfl
theorem effectOf_digest (s : State) : effectOf .digest s = digestEffect s := rfl
theorem effectOf_sign (s : State) : effectOf .sign s = signEffect s := rfl

/-- A state after an effect is the state before it with another accumulator, session and memory. -/
theorem effectOf_eq (i : Instr) (s : State) :
    effectOf i s = { s with acc := (effectOf i s).acc, sess := (effectOf i s).sess, mem := (effectOf i s).mem } := by
  cases i <;> rfl

theorem sign_mem (s : State) :
    (effectOf .sign s).mem =
      s.mem.writeBytes (operandAddr s + 4) (digestBytes (computeDigest s.mem (operandAddr s) (operandLen s) s.acc).h) := rfl

theorem sign_acc (s : State) : (effectOf .sign s).acc = (effectOf .digest s).acc := rfl

/-! ## Decoding by fields -/

/-- A legal word is its opcode and its immediate; the reserved bits are 0 (rules R70, R74). -/
theorem decodeCommand_fields (h : decodeCommand w = .ok i) : w = commandWord (opField w) (imm8Field w) := by
  unfold decodeCommand at h
  split at h
  · cases h
  · next hr =>
    push Not at hr
    have h1 := congrArg BitVec.toNat hr.1
    have h2 := congrArg BitVec.toNat hr.2
    have hw := w.isLt
    apply BitVec.eq_of_toNat_eq
    simp [reservedLow, reservedHigh, BitVec.extractLsb'_toNat, Nat.shiftRight_eq_div_pow] at h1 h2
    simp only [commandWord, opField, imm8Field, BitVec.extractLsb'_toNat, Nat.shiftRight_eq_div_pow, BitVec.toNat_ofNat]
    omega

theorem plainCommand_ok {b : Byte} {j : Instr} (h : plainCommand b j = .ok i) : b = 0 ∧ j = i := by
  unfold plainCommand at h
  split at h
  · next h0 => cases h; exact ⟨h0, rfl⟩
  · cases h

end Sys2Proof.Machine
end

