-- ==== Sys2Proof/Laws/HostPort.lean ====
section
/-! SUPPORT. What a host access does, and what one step is (10_state.md rules R28 to R37). -/

namespace Sys2Proof.Machine

/-! ## Which register an access reaches -/

theorem regAt_offset (r : HostReg) : regAt r.offset 4 = some r := by cases r <;> rfl

theorem regAt_eq_none_iff (offset size : Nat) : regAt offset size = none ↔ accessWf offset size = false := by
  by_cases hs : size = 4
  · subst hs
    by_cases ho : offset < 0x30
    · interval_cases offset <;> decide
    · have hn : regAt offset 4 = none := by
        unfold regAt
        rw [if_pos rfl]
        split <;> first | omega | rfl
      simp [hn, accessWf]
      omega
  · simp [regAt, accessWf, hs]

/-! ## One access -/

theorem hostAccess_read (r : HostReg) (s : State) : hostAccess (.read r.offset 4) s = .next (readReg r s) := by
  simp only [hostAccess, regAt_offset]

theorem hostAccess_write (r : HostReg) (v : Word) (s : State) : hostAccess (.write r.offset 4 v) s = writeReg r v s := by
  simp only [hostAccess, regAt_offset]

/-- Once an accumulator has been created a read shows the register (rule R35). -/
theorem readReg_created (r : HostReg) {s : State} (h : s.sess ≠ .NONE) : readReg r s = returnRead (regView r s) s := by
  unfold readReg
  split
  · next h' _ => exact absurd h' h
  · rfl

/-- A register with a reset value is shown in every state (rule R39). -/
theorem readReg_specified {r : HostReg} (h : drawWidth r = none) (s : State) : readReg r s = returnRead (regView r s) s := by
  unfold readReg
  split
  · next h' => simp [h] at h'
  · rfl

/-- Before that, a read of an unspecified register is a free draw (rule R39). -/
theorem readReg_free {r : HostReg} {width : Nat} (h : drawWidth r = some width) {s : State} (hs : s.sess = .NONE) :
    readReg r s = returnRead (freeDraw s.draws width) { s with draws := s.draws + 1 } := by
  simp only [readReg, hs, h]

/-- A read changes nothing but what the host has read and the draw counter. -/
theorem readReg_frame (r : HostReg) (s : State) :
    readReg r s = { s with reads := (readReg r s).reads, draws := (readReg r s).draws } := by
  unfold readReg
  split <;> rfl

/-! ## The `CMD` write -/

theorem writeCommand_halted (w : Word) {s : State} (h : s.err ≠ none) : writeCommand w s = .next s := if_pos h

theorem writeCommand_illegal {w : Word} {s : State} (h : s.err = none) {e : Illegal} (hw : decodeCommand w = .error e) :
    writeCommand w s = .next (takeFault .illegalCommand w s) := by
  rw [writeCommand, if_neg (by simp [h]), hw]

theorem writeCommand_legal {w : Word} {s : State} (h : s.err = none) {i : Instr} (hw : decodeCommand w = .ok i) :
    writeCommand w s = exec i s := by
  rw [writeCommand, if_neg (by simp [h]), hw]

/-- Everything a `CMD` write can do. -/
theorem writeCommand_cases {w : Word} {s t : State} (h : writeCommand w s = .next t) :
    (s.err ≠ none ∧ t = s) ∨
      (s.err = none ∧ (∀ i, decodeCommand w ≠ .ok i) ∧ t = takeFault .illegalCommand w s) ∨
      (s.err = none ∧ ∃ i, decodeCommand w = .ok i ∧ exec i s = .next t) := by
  by_cases he : s.err = none
  · cases hw : decodeCommand w with
    | error e =>
      rw [writeCommand_illegal he hw] at h
      exact .inr (.inl ⟨he, by simp, by cases h; rfl⟩)
    | ok i =>
      rw [writeCommand_legal he hw] at h
      exact .inr (.inr ⟨he, i, rfl, h⟩)
  · rw [writeCommand_halted w he] at h
    exact .inl ⟨he, by cases h; rfl⟩

/-! ## Reset during a command -/

/-- What an abandoned command leaves: everything, unless it is a SIGN past its checks; then some bytes of the slot are its
digest bytes (70_reset_and_hazards.md rule R200). -/
theorem abandonCommand_cases (w : Word) (s : State) :
    abandonCommand w s = s ∨
      (s.err = none ∧ decodeCommand w = .ok .sign ∧ 20 ≤ s.len.toNat ∧ s.addr.toNat + s.len.toNat ≤ 2 ^ 32 ∧
        (abandonCommand w s).mem =
          writeSome s.mem s.draws (s.addr.toNat + 4)
            (digestBytes (computeDigest s.mem s.addr.toNat s.len.toNat s.acc).h) ∧
        abandonCommand w s = { s with mem := (abandonCommand w s).mem, draws := s.draws + 16 }) := by
  unfold abandonCommand
  split
  · next h =>
    obtain ⟨h1, h2⟩ := checkContainer_eq_none.1 h.2.2
    exact .inr ⟨h.1, h.2.1, h1, h2, rfl, rfl⟩
  · exact .inl rfl

/-! ## One step -/

theorem step_inactive {s : State} (h : s.unit.active = false) : step s = hostStep s := by simp [step, h]

theorem step_active {s : State} (h : s.unit.active = true) : step s = sequencerStep s := by simp [step, h]

/-- With no transform in progress and an access pending, a step is that access. -/
theorem step_access {s : State} (a : HostAccess) (rest : List HostAccess) (h : s.unit.active = false) :
    step { s with host := a :: rest } = hostAccess a { s with host := rest } := by
  rw [step_inactive (s := { s with host := a :: rest }) h]
  rfl

/-- While a transform is in progress, a step is the step its counter selects, and its end after step 63. -/
theorem step_sequencer {s : State} (h : s.unit.active = true) :
    step s = .next (endOfStep s.unit.step (performStep s.unit.step.toNat s)) := by
  rw [step_active h, sequencerStep, exec_decodeStep]

end Sys2Proof.Machine
end

