-- ==== Sys2Proof/Laws/Transform.lean ====
section
/-! SUPPORT. The transform unit step by step (40_block_transform.md rules R93, R99, R100; 10_state.md rule R27), and runs of the
machine. -/

namespace Sys2Proof.Machine

/-- Steps 0 to `n - 1` in order. Irreducible, so that no proof unfolds them by accident. -/
@[irreducible] def unitAfter (u : TransformUnit) (n : Nat) : TransformUnit :=
  (List.range n).foldl (fun v i => v.performStep (stepRow i)) u

theorem unitAfter_zero (u : TransformUnit) : unitAfter u 0 = u := by unfold unitAfter; rfl

theorem unitAfter_succ (u : TransformUnit) (n : Nat) : unitAfter u (n + 1) = (unitAfter u n).performStep (stepRow n) := by
  unfold unitAfter
  rw [List.range_succ, List.foldl_append]
  rfl

theorem performAll_eq (u : TransformUnit) : u.performAll = unitAfter u 64 := by
  unfold TransformUnit.performAll unitAfter
  exact Eq.refl _

theorem transform_eq (h : HWords) (blk : Block) : transform h blk = addBack h (unitAfter (TransformUnit.seed h blk) 64) := by
  unfold transform; rw [performAll_eq]

theorem unitAfter_step (u : TransformUnit) (hu : u.step = 0) (n : Nat) : (unitAfter u n).step.toNat = n % 64 := by
  induction n with
  | zero => rw [unitAfter_zero, hu]; rfl
  | succ n ih =>
    rw [unitAfter_succ]
    show ((unitAfter u n).step + 1).toNat = _
    rw [BitVec.toNat_add, ih]; simp

theorem unitAfter_active (u : TransformUnit) (n : Nat) : (unitAfter u n).active = u.active := by
  induction n with
  | zero => rw [unitAfter_zero]
  | succ n ih => rw [unitAfter_succ]; exact ih

theorem unitAfter_x (u : TransformUnit) (n : Nat) : (unitAfter u n).x = u.x := by
  induction n with
  | zero => rw [unitAfter_zero]
  | succ n ih => rw [unitAfter_succ]; exact ih

/-! ## The form without register renaming (rule R100), by `i mod 4` -/

theorem unrolledStep_zero {i : Nat} (h : i % 4 = 0) (u : TransformUnit) :
    unrolledStep i u = { u with a := stepNew (stepRow i) u, step := u.step + 1 } := by
  unfold unrolledStep stepNew; rw [h]; simp only [BitVec.add_comm]

theorem unrolledStep_one {i : Nat} (h : i % 4 = 1) (u : TransformUnit) :
    unrolledStep i u =
      { u with d := stepNew (stepRow i) { u with a := u.d, b := u.a, c := u.b, d := u.c }, step := u.step + 1 } := by
  unfold unrolledStep stepNew; rw [h]; simp only [BitVec.add_comm]

theorem unrolledStep_two {i : Nat} (h : i % 4 = 2) (u : TransformUnit) :
    unrolledStep i u =
      { u with c := stepNew (stepRow i) { u with a := u.c, b := u.d, c := u.a, d := u.b }, step := u.step + 1 } := by
  unfold unrolledStep stepNew; rw [h]; simp only [BitVec.add_comm]

theorem unrolledStep_three {i : Nat} (h : i % 4 = 3) (u : TransformUnit) :
    unrolledStep i u =
      { u with b := stepNew (stepRow i) { u with a := u.b, b := u.c, c := u.d, d := u.a }, step := u.step + 1 } := by
  unfold unrolledStep stepNew; rw [h]; simp only [BitVec.add_comm]

/-! ## Runs -/

/-- `n + 1` steps are `n` steps and one more. -/
theorem run_succ (M : Host.Core) {n : Nat} {s t : M.State} (h : M.run n s = .next t) : M.run (n + 1) s = M.step t := by
  induction n generalizing s with
  | zero =>
    simp only [Host.Core.run] at h ⊢
    cases h
    cases M.step t <;> rfl
  | succ n ih =>
    rw [Host.Core.run] at h ⊢
    cases hs : M.step s with
    | next u => rw [hs] at h; exact ih h
    | fault => rw [hs] at h; cases h
    | refused => rw [hs] at h; cases h

theorem core_run_succ {n : Nat} {s t : State} (h : Host.Core.run core n s = .next t) : Host.Core.run core (n + 1) s = step t :=
  run_succ core h

/-- A step of a transform in progress, by its unit alone: instantiating `u` unfolds nothing. -/
theorem step_unit (s : State) (u : TransformUnit) (h : u.active = true) :
    step { s with unit := u } = .next (endOfStep u.step (performStep u.step.toNat { s with unit := u })) :=
  step_sequencer (s := { s with unit := u }) h

end Sys2Proof.Machine
end

