-- ==== Sys2Proof/Tests/Slice0.lean ====
section
/-! SUPPORT. The model's own tests. Expected results are the spec's vectors (95_test_vectors.md) and words written out from its
encodings (30_encoding.md); the witnesses show, for each statement with hypotheses, concrete values that meet them. The tests that
evaluate whole transforms stand last, so that no other proof waits for them. -/

namespace Sys2Proof.Tests

open Sys2Proof.Machine

/- One theorem at a time: the tests wait for the kernel, and each waiting theorem would hold a thread. -/
set_option Elab.async false

/-! ## Small states -/

/-- After reset and INIT. -/
def opened : State := { State.reset with acc := freshAccumulator Accumulator.atReset.p, sess := .OPEN }

/-- A state whose operand registers hold `a` and `n`. -/
def withOperands (a n : Word) (s : State) : State := { s with addr := a, len := n }

/-- A state with bytes written at `a`, unlisted elsewhere. -/
def withBytes (a : Nat) (bs : List Byte) (s : State) : State := { s with mem := Memory.writeBytes [] a bs }

/-- A state with a given count and fill. -/
def withCount (c0 c1 : Word) (fill : BitVec 6) (s : State) : State :=
  { s with acc := { s.acc with c0 := c0, c1 := c1, fill := fill } }

/-- What a step or a meaning leaves, seen through `f`; none where it does not answer a next state. -/
def seen {α : Type} (f : State → α) : Out → Option α
  | .next t => some (f t)
  | _ => none

/-- The pattern of 95_test_vectors.md: byte `i` is `(7i + 1) mod 256`. -/
def pattern (n : Nat) : List Byte := (List.range n).map fun i => BitVec.ofNat 8 (7 * i + 1)

def helloWorld : List Byte := [0x68, 0x65, 0x6C, 0x6C, 0x6F, 0x20, 0x77, 0x6F, 0x72, 0x6C, 0x64]

/-! ## Well-formedness: an ill-formed term for each check -/

/-- Codes: opcode 0 and 8 to 15, bits 7:4, bits 31:16, an immediate outside ABSORBI (rules R71, R74). -/
theorem test_ill_formed_codes :
    ([0x00000000, 0x00000008, 0x0000000F, 0x00000011, 0x00000081, 0x00010001, 0x80000002, 0x00000101] : List Word).all
      (fun w => !(Code.command w).wf) = true := by decide +kernel

/-- Accesses: a byte, a half-word, a misaligned offset, an offset of 0x30 (rule R37). -/
theorem test_ill_formed_accesses :
    ∀ p ∈ ([(0x00, 1), (0x04, 2), (0x02, 4), (0x30, 4)] : List (Nat × Nat)), accessWf p.1 p.2 = false := by decide

/-- Lines: a byte of 256, operands of 2^32, a character of 128, `RD CMD` (rules R81, R83). -/
theorem test_ill_formed_lines :
    ∀ l ∈ ([.absorbi 256, .absorb (2 ^ 32) 0, .final 0 (2 ^ 32), .xform (2 ^ 32), .digest (2 ^ 32) 20, .sign 0 (2 ^ 32),
      .absorbs [128], .rd .CMD, .hash 0 (2 ^ 32)] : List Line), l.wf = false := by decide +kernel

theorem test_well_formed :
    (Code.command 0x0000FF02).wf = true ∧ accessWf 0x2C 4 = true ∧ (Line.absorbs [0x61, 0x62, 0x63]).wf = true := by decide

/-! ## Decoding, words written out bit by bit (rules R70 to R72, R76) -/

theorem test_decode_commands :
    ∀ p ∈ ([(0b0000000000000000_00000000_0000_0001, .init), (0b0000000000000000_01100001_0000_0010, .absorbi 0x61),
      (0b0000000000000000_00000000_0000_0011, .absorb), (0b0000000000000000_00000000_0000_0100, .xform),
      (0b0000000000000000_00000000_0000_0101, .final), (0b0000000000000000_00000000_0000_0110, .digest),
      (0b0000000000000000_00000000_0000_0111, .sign)] : List (Word × Instr)),
      decode (.command p.1) = .ok p.2 ∧ encode p.2 = .command p.1 ∧ decodeTableWord 32 p.1.toNat = some p.2 := by
  decide +kernel

theorem test_decode_steps_round1 :
    ∀ p ∈ ([(0b000000, .step00), (0b000001, .step01), (0b000010, .step02), (0b000011, .step03),
      (0b000100, .step04), (0b000101, .step05), (0b000110, .step06), (0b000111, .step07),
      (0b001000, .step08), (0b001001, .step09), (0b001010, .step10), (0b001011, .step11),
      (0b001100, .step12), (0b001101, .step13), (0b001110, .step14), (0b001111, .step15)] : List (BitVec 6 × Instr)),
      decode (.step p.1) = .ok p.2 ∧ decodeTableWord 8 p.1.toNat = some p.2 := by decide +kernel

theorem test_decode_steps_round2 :
    ∀ p ∈ ([(0b010000, .step16), (0b010001, .step17), (0b010010, .step18), (0b010011, .step19),
      (0b010100, .step20), (0b010101, .step21), (0b010110, .step22), (0b010111, .step23),
      (0b011000, .step24), (0b011001, .step25), (0b011010, .step26), (0b011011, .step27),
      (0b011100, .step28), (0b011101, .step29), (0b011110, .step30), (0b011111, .step31)] : List (BitVec 6 × Instr)),
      decode (.step p.1) = .ok p.2 ∧ decodeTableWord 8 p.1.toNat = some p.2 := by decide +kernel

theorem test_decode_steps_round3 :
    ∀ p ∈ ([(0b100000, .step32), (0b100001, .step33), (0b100010, .step34), (0b100011, .step35),
      (0b100100, .step36), (0b100101, .step37), (0b100110, .step38), (0b100111, .step39),
      (0b101000, .step40), (0b101001, .step41), (0b101010, .step42), (0b101011, .step43),
      (0b101100, .step44), (0b101101, .step45), (0b101110, .step46), (0b101111, .step47)] : List (BitVec 6 × Instr)),
      decode (.step p.1) = .ok p.2 ∧ decodeTableWord 8 p.1.toNat = some p.2 := by decide +kernel

theorem test_decode_steps_round4 :
    ∀ p ∈ ([(0b110000, .step48), (0b110001, .step49), (0b110010, .step50), (0b110011, .step51),
      (0b110100, .step52), (0b110101, .step53), (0b110110, .step54), (0b110111, .step55),
      (0b111000, .step56), (0b111001, .step57), (0b111010, .step58), (0b111011, .step59),
      (0b111100, .step60), (0b111101, .step61), (0b111110, .step62), (0b111111, .step63)] : List (BitVec 6 × Instr)),
      decode (.step p.1) = .ok p.2 ∧ decodeTableWord 8 p.1.toNat = some p.2 := by decide +kernel

/-- The illegal words of vectors E1 to E7 and E27 raise `IllegalCommand`; each is rejected by name. -/
theorem test_illegal_words :
    ∀ p ∈ ([(0x00000000, .opcode), (0x00000008, .opcode), (0x0000000F, .opcode), (0x00000011, .reservedBits),
      (0x00010001, .reservedBits), (0x00000101, .immediate), (0x00010002, .reservedBits), (0x00000015, .reservedBits)] :
        List (Word × Illegal)),
      decode (.command p.1) = .error p.2 ∧
        seen (fun t => (statusWord t, t.ecmd)) (writeCommand p.1 opened) = some (0x21, p.1) := by decide +kernel

/-! ## Primitives (vectors V1 to V25) -/

theorem test_rotations :
    rotl32 0x80000001 1 = 0x00000003 ∧ rotl32 0x12345678 7 = 0x1A2B3C09 ∧ rotl32 0x12345678 23 = 0x3C091A2B ∧
      rotl32 0xD76AA477 7 = 0xB5523BEB := by decide

theorem test_byte_order :
    le32 0x12345678 = [0x78, 0x56, 0x34, 0x12] ∧ wordLe 0x61 0x62 0x63 0x80 = 0x80636261 := by decide

theorem test_round_functions :
    roundFn 0 0xFFFF0000 0x12345678 0x9ABCDEF0 = 0x1234DEF0 ∧ roundFn 1 0x12345678 0x9ABCDEF0 0xFFFF0000 = 0x1234DEF0 ∧
      roundFn 2 0x12345678 0x9ABCDEF0 0xFFFF0000 = 0x77778888 ∧ roundFn 3 0x12345678 0x9ABCDEF0 0xFFFF0000 = 0x8888210F := by
  decide

theorem test_markers :
    marker 0x0 = 0x1 ∧ marker 0x8 = 0x3 ∧ marker 0x1B8 = 0x6F ∧ marker 0x1C0 = 0x71 ∧ marker 0x200 = 0x81 ∧
      marker 0xFFFFFFF8 = 0x3FFFFFFF := by decide

/-! ## The host port and the fetch -/

/-- A read of `CMD` is 0; `ADDR` takes a write in the halted state; a write to `STATUS` changes nothing (section 7). -/
theorem test_host_registers :
    (readReg .CMD opened).reads = [0] ∧
      seen (fun t => t.addr) (step { opened with err := some .badTail, host := [.write 0x08 4 0xDEADBEEF] }) =
        some 0xDEADBEEF ∧
      seen statusWord (step { opened with host := [.write 0x04 4 0xFFFFFFFF] }) = some 0x01 := by decide +kernel

/-- The first step after reset runs the placed word: INIT, an illegal word, and STEP17 as bits (rules R71, R74, R76). -/
theorem test_first_step_after_reset :
    seen statusWord (step (State.reset.withFetchWord 32 0x1)) = some 0x01 ∧
      seen statusWord (step (State.reset.withFetchWord 32 0x8)) = some 0x20 ∧
      seen (fun t => t.unit.step) (step (State.reset.withFetchWord 8 0b010001)) = some 18 := by decide +kernel

/-- `HASH 0x5000, 200` is the seven writes of rule R83. -/
theorem test_hash_line :
    Line.expand (.hash 0x5000 200) =
      [.write 0x00 4 0x1, .write 0x08 4 0x5000, .write 0x0C 4 0xC0, .write 0x00 4 0x3, .write 0x08 4 0x50C0,
        .write 0x0C 4 0x8, .write 0x00 4 0x5] := by decide +kernel

/-- Lines of programs P2 to P5 of section 9, and lines that rules R81 and R83 do not have. -/
theorem test_lines_of_text :
    parseLine "ABSORB 0x2014, 64".toList = some [.absorb 0x2014 64] ∧
      parseLine "FINAL 0, 0            ; wrong: the tail was absorbed".toList = some [.final 0 0] ∧
      parseLine "ABSORBS \"abc\"".toList = some [.absorbs [0x61, 0x62, 0x63]] ∧
      parseLine "RD H0                 ; running state".toList = some [.rd .H0] ∧
      parseLine "XFORM 0x400".toList = some [.xform 0x400] ∧ parseLine "INIT".toList = some [.init] ∧
      parseLine "; a comment".toList = some [] ∧ parseLine "ABSORBI 256".toList = none ∧ parseLine "RD CMD".toList = none ∧
      parseLine "FINAL 0".toList = none := by decide +kernel

/-! ## Memory -/

theorem test_reset_memory : State.reset.mem.wf := Memory.wf_nil

theorem test_memory_canonical :
    Memory.write [(5, 0x11)] 5 0 = [] ∧ Memory.write [(5, 0x11)] 3 0x22 = [(3, 0x22), (5, 0x11)] ∧
      Memory.readLe [(3, 0x22), (5, 0x11)] 3 3 = 0x110022 := by decide +kernel

/-! ## Witnesses: for each statement with hypotheses, values that meet all of them, at the boundaries of each clause -/

/-- A container of `n` bytes at the highest address it fits at. -/
def atTop (n : Nat) (s : State) : State := withOperands (BitVec.ofNat 32 (2 ^ 32 - n)) (BitVec.ofNat 32 n) s

theorem witness_IllegalWordsRaiseIllegalCommand :
    State.reset.err = none ∧
      ((0x00000010 : Word).extractLsb' 0 4).toNat = 0 ∧ 8 ≤ ((0x00000008 : Word).extractLsb' 0 4).toNat ∧
      (0x00000012 : Word).extractLsb' 4 4 ≠ 0 ∧ (0x80000001 : Word).extractLsb' 16 16 ≠ 0 ∧
      (0x00000103 : Word).extractLsb' 8 8 ≠ 0 ∧ ((0x00000103 : Word).extractLsb' 0 4).toNat ≠ 2 := by decide

theorem witness_EncodeOfDecodeIsTheCode :
    decode (.command 0x0000FF02) = .ok (.absorbi 0xFF) ∧ decode (.step 63) = .ok .step63 := by decide

theorem witness_AssemblerLinesWriteTheirCommands : 255 < 256 ∧ 2 ^ 32 - 1 < 2 ^ 32 := by decide +kernel

theorem witness_RoundFunctionsSelectBitByBit : 31 < 32 := by decide

theorem witness_MessageOrdersHaveClosedForms : 15 < 16 ∧ 3 < 4 := by decide

theorem witness_SixtyFourStepsAreTheTransform : 0 < 64 ∧ 63 < 64 := by decide

theorem witness_XformTransformsTheBlockAtAddr :
    let s := withOperands 0xFFFFFFC0 0 opened
    s.err = none ∧ s.sess = .OPEN ∧ s.addr.toNat + 64 ≤ 2 ^ 32 ∧
      ∀ k, k < 64 → byteAt (blockOf fun _ => 0) k = s.mem.read (s.addr.toNat + k) := by decide +kernel

theorem witness_InitCreatesAFreshAccumulator : State.reset.err = none := rfl

theorem witness_AbsorbiAbsorbsItsByte :
    let s := withCount 0x1F0 0 62 opened
    let t := withCount 0x1F8 0 63 opened
    (s.err = none ∧ s.sess = .OPEN ∧ s.acc.fill.toNat < 63) ∧ (t.err = none ∧ t.sess = .OPEN ∧ t.acc.fill.toNat = 63) := by
  decide +kernel

theorem witness_CarryFollowsTheLowHalf : (withCount 0xFFFFFFF8 0 63 opened).acc.c0.toNat % 8 = 0 := by decide +kernel

/-- For AbsorbAbsorbsItsSlice, SplittingASliceDoesNotMatter (`m = LEN`) and AbsorbIsItsImmediateBytes. -/
theorem witness_absorb :
    let s := atTop 100 opened
    s.err = none ∧ s.sess = .OPEN ∧ s.addr.toNat + s.len.toNat ≤ 2 ^ 32 ∧ 100 ≤ s.len.toNat := by decide +kernel

theorem witness_FinalWithALongTailIsCaseA :
    ∀ n ∈ [56, 63],
      let s := atTop n opened
      s.err = none ∧ s.sess = .OPEN ∧ s.acc.fill = 0 ∧ 56 ≤ s.len.toNat ∧ s.len.toNat ≤ 63 ∧
        s.addr.toNat + s.len.toNat ≤ 2 ^ 32 := by decide +kernel

theorem witness_FinalWithAShortTailIsCaseB :
    ∀ n ∈ [0, 55],
      let s := atTop n opened
      s.err = none ∧ s.sess = .OPEN ∧ s.acc.fill = 0 ∧ s.len.toNat ≤ 55 ∧ s.addr.toNat + s.len.toNat ≤ 2 ^ 32 := by
  decide +kernel

theorem witness_MarkerIsAQuarterPlusOne : (0xFFFFFFF8 : Word).toNat % 8 = 0 := by decide

/-- For the statements about DIGEST and SIGN: the shortest container, and payloads of 55 and 56 bytes, at the top of memory. -/
theorem witness_container :
    ∀ n ∈ [20, 75, 76],
      let s := atTop n State.reset
      s.err = none ∧ 20 ≤ s.len.toNat ∧ s.addr.toNat + s.len.toNat ≤ 2 ^ 32 := by decide +kernel

theorem witness_container_memory : (atTop 20 State.reset).mem.wf := Memory.wf_nil

theorem witness_DigestLeavesThisCount : 56 ≤ (76 - 20) % 64 ∧ (75 - 20) % 64 < 56 := by decide

/-- Two containers at different addresses that differ in the slot and in the session before. -/
theorem witness_DigestDependsOnThePayloadAlone :
    let s := withBytes 0x1000 (List.replicate 20 0xEE ++ helloWorld) (withOperands 0x1000 31 State.reset)
    let t := withBytes 0x2001 (List.replicate 20 0x11 ++ helloWorld) (withOperands 0x2001 31 opened)
    s.err = none ∧ t.err = none ∧ s.len = t.len ∧ 20 ≤ s.len.toNat ∧ s.addr.toNat + s.len.toNat ≤ 2 ^ 32 ∧
      t.addr.toNat + t.len.toNat ≤ 2 ^ 32 ∧
      ∀ k, k < s.len.toNat → 20 ≤ k → s.mem.read (s.addr.toNat + k) = t.mem.read (t.addr.toNat + k) := by decide +kernel

theorem witness_CommandsNeedAnOpenSession :
    (State.reset.err = none ∧ State.reset.sess ≠ .OPEN) ∧
      ({ opened with sess := .DONE } : State).err = none ∧ ({ opened with sess := .DONE } : State).sess ≠ .OPEN := by
  decide +kernel

theorem witness_FinalRaisesBadTail :
    (opened.err = none ∧ opened.sess = .OPEN) ∧ (withCount 8 0 1 opened).acc.fill ≠ 0 ∧
      (withOperands 0 64 opened).len.toNat > 63 := by decide +kernel

theorem witness_ShortContainersFault :
    State.reset.err = none ∧ State.reset.len.toNat < 20 ∧ (withOperands 0 19 State.reset).len.toNat < 20 := by decide +kernel

theorem witness_RangesPastTheLastAddressFault :
    (let s := withOperands 0xFFFFFFFF 2 opened
     s.err = none ∧ s.sess = .OPEN ∧ s.addr.toNat + s.len.toNat > 2 ^ 32 ∧ s.acc.fill = 0 ∧ s.len.toNat ≤ 63) ∧
    (let s := withOperands 0xFFFFFFC1 0 opened
     s.err = none ∧ s.sess = .OPEN ∧ s.addr.toNat + 64 > 2 ^ 32) ∧
    (let s := withOperands 0xFFFFFFED 20 State.reset
     s.err = none ∧ 20 ≤ s.len.toNat ∧ s.addr.toNat + s.len.toNat > 2 ^ 32) ∧
    (let s := withOperands 0xFFFFFFFF 0 opened
     s.err = none ∧ s.sess = .OPEN ∧ s.len = 0 ∧ s.acc.fill = 0) := by decide +kernel

theorem witness_TheFirstApplicableCheckIsReported :
    ({ opened with err := some .badTail } : State).err ≠ none ∧
      (opened.err = none ∧ ∃ e, decodeCommand 0x11 = .error e) ∧
      (decodeCommand 0x5 = .ok .final ∧ firstFault .final (withOperands 0xFFFFFFFF 64 opened) = some .badTail) ∧
      (decodeCommand 0x5 = .ok .final ∧ firstFault .final opened = none) :=
  ⟨by decide +kernel, ⟨rfl, .reservedBits, rfl⟩, by decide +kernel, by decide +kernel⟩

theorem witness_AHaltedEngineDiscardsCommands :
    let s : State := { opened with err := some .badTail, ecmd := 0x5 }
    s.err ≠ none ∧ s.unit.active = false ∧ s.sess ≠ .NONE := by decide +kernel

theorem witness_AFaultChangesErrAndEcmdOnly :
    State.reset.err = none ∧
      writeCommand 0x0 State.reset = .next { State.reset with err := some .illegalCommand, ecmd := 0x0 } ∧
      ({ State.reset with err := some .illegalCommand, ecmd := 0x0 } : State).err ≠ none :=
  ⟨rfl, rfl, by decide +kernel⟩

/-- Between commands, and in the middle of a transform with a reset pending. -/
theorem witness_FaultsAreLatchedUntilReset :
    (let s : State := { opened with err := some .badTail, host := [.write 0x00 4 0x1] }
     step s = .next { s with host := [] } ∧ s.err = some .badTail ∧ resetsNext s = false) ∧
    (let s : State := { opened with
      err := some .badTail, host := [.reset], unit := { TransformUnit.atReset with active := true } }
     step s = .next (performStep 0 s) ∧ s.err = some .badTail ∧ s.unit.active = true) :=
  ⟨⟨rfl, rfl, rfl⟩, rfl, rfl, rfl⟩

theorem witness_ACommandWriteRunsTheDecodedInstruction :
    (let s : State := { State.reset with host := [.write 0x00 4 0x0000FF02] }
     s.unit.active = false ∧ s.host = .write 0x00 4 0x0000FF02 :: [] ∧ s.err = none ∧
       decode (.command 0x0000FF02) = .ok (.absorbi 0xFF)) ∧
    State.reset.unit.active = false ∧ State.reset.host = [] := by decide +kernel

theorem witness_TheSequencerRunsTheSelectedStep :
    ∀ n ∈ ([0, 63] : List (BitVec 6)),
      let s : State := { opened with unit := { TransformUnit.atReset with step := n, active := true } }
      s.unit.active = true ∧ decode (.step s.unit.step) = .ok (decodeStep n) ∧
        exec (decodeStep n) s = .next (performStep n.toNat s) :=
  fun _ _ => ⟨rfl, rfl, exec_decodeStep _ _⟩

theorem witness_APlacedWordIsTheNextInstruction :
    (decodeTableWord 32 0x0000FF02 = some (.absorbi 0xFF) ∧ 8 < 32) ∧ decodeTableWord 8 63 = some .step63 ∧ 8 ≤ 8 := by
  decide +kernel

/-- For the statements about host accesses, StatusShowsSessionAndFault among them: no transform in progress, before and after the first accumulator. -/
theorem witness_host_access :
    (State.reset.unit.active = false ∧ State.reset.sess = .NONE) ∧ opened.unit.active = false ∧ opened.sess ≠ .NONE := by
  decide +kernel

theorem witness_OnlyAlignedWordAccessesAreDefined :
    accessWf 0x2C 4 = true ∧ accessWf 0x30 4 = false ∧ accessWf 0x01 4 = false ∧ accessWf 0x00 2 = false := by decide

theorem witness_HostMemoryAccessesReadAndWriteBytes :
    State.reset.unit.active = false ∧ State.reset.mem.wf ∧ 0xFFFFFFFF < 2 ^ 32 ∧ 2 ^ 32 ≤ 0x100000000 :=
  ⟨rfl, Memory.wf_nil, by decide +kernel, by decide +kernel⟩

theorem witness_ResetGivesTheResetValues :
    let s : State := { opened with err := some .badTail, host := [.reset] }
    s.unit.active = false ∧ s.host = .reset :: [] := by decide +kernel

/-- SIGN of a header at 0x1000 completes. -/
theorem sign_completes :
    exec .sign (withOperands 0x1000 20 State.reset) = .next (effectOf .sign (withOperands 0x1000 20 State.reset)) := by
  rw [exec_command (w := commandWord 0x7 0) rfl, runCommand_effect rfl (by decide +kernel)]

/-- A SIGN that a reset falls into. -/
theorem witness_ResetDuringACommandLeavesSlotBytesOldOrNew :
    let s : State := withOperands 0x1000 20 State.reset
    s.unit.active = false ∧ s.mem.wf ∧ ∃ d, writeCommand 0x7 s = .next d :=
  ⟨rfl, Memory.wf_nil, effectOf .sign (withOperands 0x1000 20 State.reset), (writeCommand_legal rfl rfl).trans sign_completes⟩

theorem witness_EveryStepKeepsTheInvariant :
    State.Inv { State.reset with host := [.write 0x00 4 0x1] } ∧
      step { State.reset with host := [.write 0x00 4 0x1] } = .next (initEffect State.reset) :=
  ⟨⟨Memory.wf_nil, fun h => absurd rfl h, fun _ => rfl⟩, rfl⟩

/-- For the statements about every instruction's next state: INIT, a fault, and SIGN. -/
theorem witness_exec :
    exec .init State.reset = .next (initEffect State.reset) ∧
      exec .final State.reset = .next (takeFault .noSession 0x5 State.reset) ∧
      exec .sign (withOperands 0x1000 20 State.reset) = .next (effectOf .sign (withOperands 0x1000 20 State.reset)) :=
  ⟨rfl, rfl, sign_completes⟩

theorem witness_OnlyResetEndsInNoSession :
    step { opened with host := [.reset] } = .next (hardwareReset { opened with host := [] }) ∧
      (hardwareReset { opened with host := [] }).sess = .NONE ∧ resetsNext { opened with host := [.reset] } = true :=
  ⟨rfl, rfl, rfl⟩

/-- Two states that differ in a byte of `P` above `fill`, and two that differ in all of an accumulator never created. -/
theorem witness_StaleContentsReachNothing :
    SameButStale opened { opened with acc := { opened.acc with p := Vector.replicate 64 0xEE } } ∧
      SameButStale State.reset { State.reset with acc := withCount 0x18 1 3 opened |>.acc } :=
  ⟨⟨rfl, rfl, rfl, rfl, rfl, rfl, rfl, rfl, rfl, rfl, fun _ => ⟨rfl, rfl, rfl, rfl, fun _ h => absurd h (Nat.not_lt_zero _)⟩⟩,
    ⟨rfl, rfl, rfl, rfl, rfl, rfl, rfl, rfl, rfl, rfl, fun h => absurd rfl h⟩⟩

/-! ## The steps and the transform (vectors X1 to X6) -/

/-- The values of vector X1: `a`, `d`, `c`, `b` before step 0, then the new value of each step. -/
def x1Values : List Word :=
  [0x67452301, 0x10325476, 0x98BADCFE, 0xEFCDAB89, 0xA51FE774, 0x219552DE, 0x93F2AB50, 0xCEE87580, 0x1775B61F,
      0x0CDA451E, 0x58DC4A44, 0x01135483, 0xE85B5E49, 0x516888D4, 0x55D9BB42, 0x787AAA00, 0x1A87C9D2] ++
    [0xD5CE4497, 0xA892AEAA, 0xA567DC27, 0x6503889E, 0x52A45614, 0xAA0A19D9, 0xD0A63629, 0x4CBD4EAF, 0x75EF700A,
      0x5429A7E4, 0xDD7C863A, 0x5EF116B2, 0x95EE4ADF, 0x87EFC319, 0xE03A6F77, 0x4053D148, 0xA40C5D2E] ++
    [0xCCD48118, 0x5FC99D2C, 0xD5BE5773, 0xE2B60B04, 0x864BAE37, 0x4253279A, 0x550F6DA4, 0xBB0523A1, 0x1E3B4D01,
      0xA5B3EEF4, 0x893ABADB, 0x4C61099D, 0x27995DAF, 0x98DFDD2C, 0xFC512051, 0x9E73C403, 0xB299063C] ++
    [0xB2302A46, 0x1A104012, 0xB06CFF4D, 0x25562263, 0x8976AD44, 0x0CC107DE, 0x71BAEE3A, 0xF9DDBE9A, 0x6CB0E69D,
      0x5124C3C1, 0x490F0E6E, 0xB83DA213, 0xCA33F748, 0x9BD9FAAB, 0x63FF231B, 0x86F08AB9, 0x7ED7E347]

/-- Every step row performs its line of vector X1: before step `i` the registers are the last four values. -/
theorem test_steps_x1 :
    ∀ i, i < 64 →
      let v (k : Nat) : Word := x1Values.getD (i + k) 0
      let before : State := { State.reset with unit := { TransformUnit.atReset with
        a := v 0, d := v 1, c := v 2, b := v 3, step := BitVec.ofNat 6 i } }
      seen (fun t => (t.unit.a, t.unit.b, t.unit.c, t.unit.d)) (exec (decodeStep (BitVec.ofNat 6 i)) before) =
        some (v 1, v 4, v 3, v 2) := by decide +kernel

/-- Vector X6, whose sixteen message words all differ; and X3, whose bytes a library gives. -/
theorem test_transform_x6_x3 :
    transform initialH (blockOf fun i => BitVec.ofNat 8 i) = #v[0x9144D9CA, 0xD901E4C9, 0x72FC5B38, 0x625FF51E] ∧
      digestBytes (transform initialH (blockOf fun i =>
        if i < 3 then BitVec.ofNat 8 (0x61 + i) else if i = 3 then 0x80 else if i = 56 then 0x18 else 0)) =
        [0x90, 0x01, 0x50, 0x98, 0x3C, 0xD2, 0x4F, 0xB0, 0xD6, 0x96, 0x3F, 0x7D, 0x28, 0xE1, 0x7F, 0x72] := by decide +kernel

/-- The end of a transform, from the registers of X1's line 63: the sums of its final addition. -/
theorem test_end_of_transform :
    (finishTransform { opened with unit := { TransformUnit.atReset with
      a := 0x9BD9FAAB, b := 0x7ED7E347, c := 0x86F08AB9, d := 0x63FF231B, active := true } }).acc.h =
      #v[0x031F1DAC, 0x6EA58ED0, 0x1FAB67B7, 0x74317791] := by decide +kernel

/-! ## XFORM (program P5, vectors E9 and E10) -/

theorem test_xform_p5 :
    seen (fun t => (t.acc.h, t.acc.c0, t.acc.fill, statusWord t))
      (exec .xform (withBytes 0x404 ([0x80] ++ List.replicate 55 0 ++ [0x01]) (withOperands 0x400 0 opened))) =
      some (#v[0xF6600D14, 0xBAE275B7, 0xD4BE4A4E, 0xA1E9B201], 0, 0, 0x01) := by decide +kernel

theorem test_xform_range :
    seen (fun t => (statusWord t, t.ecmd)) (exec .xform (withOperands 0xFFFFFFC0 0 opened)) = some (0x01, 0) ∧
      seen (fun t => (statusWord t, t.ecmd)) (exec .xform (withOperands 0xFFFFFFC1 0 opened)) = some (0x51, 0x4) := by
  decide +kernel

/-! ## INIT, ABSORBI, ABSORB (vectors A1 to A13, E8, E11, E12, E22) -/

theorem test_init_a1 :
    seen (fun t => (t.acc.h, t.acc.c0, t.acc.c1, t.acc.fill, statusWord t)) (exec .init State.reset) =
      some (#v[0x67452301, 0xEFCDAB89, 0x98BADCFE, 0x10325476], 0, 0, 0, 0x01) := by decide +kernel

theorem test_absorbi_a2_a11_a12 :
    seen (fun t => (t.acc.h, t.acc.c0, t.acc.c1, t.acc.fill, byteAt t.acc.p 0)) (exec (.absorbi 0x61) opened) =
      some (initialH, 0x8, 0, 1, 0x61) ∧
    seen (fun t => (t.acc.c0, t.acc.c1, t.acc.fill)) (exec (.absorbi 0) (withCount 0xFFFFFFF8 0 63 opened)) =
      some (0, 1, 0) ∧
    seen (fun t => (t.acc.c0, t.acc.c1, t.acc.fill)) (exec (.absorbi 0) (withCount 0xFFFFFFF8 0xFFFFFFFF 63 opened)) =
      some (0, 0, 0) := by decide +kernel

theorem test_absorbi_no_session_e22 :
    seen (fun t => (statusWord t, t.ecmd)) (exec (.absorbi 0x61) State.reset) = some (0x30, 0x6102) := by decide +kernel

/-- Vector A7: 100 bytes; `P` keeps bytes of the first block above `fill`. -/
theorem test_absorb_a7 :
    seen (fun t => (t.acc.h, t.acc.c0, t.acc.fill, byteAt t.acc.p 35, byteAt t.acc.p 36))
      (exec .absorb (withBytes 0x200 (pattern 100) (withOperands 0x200 100 opened))) =
      some (#v[0x056D8827, 0x6444F2DA, 0x3F15F051, 0x8D6A410B], 0x320, 36, 0xB6, 0xFD) := by decide +kernel

/-- Vectors A9, E12 and E11: the range of ABSORB. -/
theorem test_absorb_range :
    seen statusWord (exec .absorb (withOperands 0xFFFFFFFF 0 opened)) = some 0x01 ∧
      seen (fun t => (statusWord t, t.acc.fill)) (exec .absorb (withOperands 0xFFFFFFFF 1 opened)) = some (0x01, 1) ∧
      seen statusWord (exec .absorb (withOperands 0xFFFFFFFF 2 opened)) = some 0x51 := by decide +kernel

/-! ## FINAL (vectors F22, F24, E14 to E16, E21) -/

theorem test_final_f22_f24 :
    seen (fun t => (t.acc.h, t.acc.c0, t.acc.fill))
      (exec .final (withBytes 0x3000 ((List.range 60).map fun i => BitVec.ofNat 8 (i + 1)) (withOperands 0x3000 60 opened))) =
      some (#v[0x45236FDB, 0x7760DEC8, 0x6574012C, 0x1FD8AC53], 0x200, 0) ∧
    seen (fun t => (t.acc.h, t.acc.c0, t.acc.c1, t.acc.fill))
      (exec .final (withOperands 0 8 (withCount 0xFFFFFFC0 3 0 opened))) =
      some (#v[0xD2727F3A, 0xD6710332, 0xA4B5FED1, 0x1457CCD7], 0x20, 4, 12) := by decide +kernel

theorem test_final_faults :
    seen statusWord (exec .final (withOperands 0xFFFFFFFF 64 opened)) = some 0x41 ∧
      seen statusWord (exec .final (withOperands 0xFFFFFFFF 2 opened)) = some 0x51 ∧
      seen statusWord (exec .final (withCount 0x18 0 3 opened)) = some 0x41 ∧
      seen statusWord (exec .final State.reset) = some 0x30 := by decide +kernel

/-! ## DIGEST and SIGN (vectors S2, S3, E17 to E20, E24) -/

theorem test_digest_s2 :
    seen (fun t => (t.acc.h, statusWord t))
      (exec .digest (withBytes 0x12345 ([0x44, 0x58, 0x42, 0x43] ++ (List.range 16).map (BitVec.ofNat 8) ++ helloWorld)
        (withOperands 0x12345 31 State.reset))) =
      some (#v[0x62F867E3, 0x1DB568FA, 0x5ED39879, 0x8A546863], 0x02) := by decide +kernel

theorem test_digest_faults :
    seen (fun t => (statusWord t, t.ecmd)) (exec .digest (withOperands 0xFFFFFFF0 19 opened)) = some (0x11, 0x6) ∧
      seen (fun t => (statusWord t, t.ecmd)) (exec .digest (withOperands 0xFFFFFFF0 20 opened)) = some (0x51, 0x6) ∧
      seen (fun t => (statusWord t, t.ecmd)) (exec .digest (withOperands 0 19 State.reset)) = some (0x10, 0x6) := by
  decide +kernel

theorem test_sign_s3 :
    seen (fun t => t.mem.slice 0x1000 23)
      (exec .sign (withBytes 0x1000 ([0x44, 0x58, 0x42, 0x43] ++ List.replicate 16 0 ++ [0x61, 0x62, 0x63])
        (withOperands 0x1000 23 State.reset))) =
      some [0x44, 0x58, 0x42, 0x43, 0xFB, 0xF0, 0xFF, 0xB0, 0x1D, 0x1F, 0x9D, 0x12, 0x86, 0x4D, 0xFF, 0x88, 0x30, 0xD1, 0xB4,
        0xA3, 0x61, 0x62, 0x63] := by decide +kernel

theorem test_sign_short_e18 :
    seen (fun t => (statusWord t, t.ecmd, t.mem)) (exec .sign opened) = some (0x11, 0x7, []) := by decide +kernel

end Sys2Proof.Tests
end

section
/-! What an instruction keeps: the register frame and the table of session transitions (10_state.md rules R31, R41). -/

namespace Sys2Proof.Machine

variable {i : Instr} {w : Word} {n : BitVec 6} {s t : State}

/-! ## What an instruction keeps -/

/-- Every instruction answers a next state. -/
theorem exec_next (i : Instr) (s : State) : ∃ t, exec i s = .next t := by
  cases hc : encode i with
  | command w => rw [exec_command hc]; exact runCommand_next ..
  | step n => exact ⟨_, exec_step hc s⟩

/-- No instruction changes the operand registers or what belongs to the host. -/
theorem exec_keeps_operands (h : exec i s = .next t) :
    t.addr = s.addr ∧ t.len = s.len ∧ t.host = s.host ∧ t.reads = s.reads ∧ t.draws = s.draws := by
  obtain ⟨w, -, ⟨-, rfl⟩ | ⟨-, f, -, rfl⟩ | ⟨-, -, rfl⟩⟩ | ⟨n, -, rfl⟩ := exec_cases h
  · exact ⟨rfl, rfl, rfl, rfl, rfl⟩
  · exact ⟨rfl, rfl, rfl, rfl, rfl⟩
  · obtain ⟨-, -, haddr, hlen, -, hhost, hreads, hdraws⟩ := effectOf_frame i s
    exact ⟨haddr, hlen, hhost, hreads, hdraws⟩
  · exact ⟨rfl, rfl, rfl, rfl, rfl⟩

/-- A command leaves the transform unit, and `ERR` and `ECMD` unless it faults; a fault changes nothing else. -/
theorem exec_command_keeps_unit_and_err (hw : encode i = .command w) (h : exec i s = .next t) :
    t.unit = s.unit ∧
      ((t.err = s.err ∧ t.ecmd = s.ecmd) ∨
        (s.err = none ∧ t.err ≠ none ∧ t.ecmd = w ∧ t.acc = s.acc ∧ t.sess = s.sess ∧ t.mem = s.mem)) := by
  rw [exec_command hw] at h
  obtain ⟨-, rfl⟩ | ⟨he, f, -, rfl⟩ | ⟨-, -, rfl⟩ := runCommand_cases h
  · exact ⟨rfl, .inl ⟨rfl, rfl⟩⟩
  · exact ⟨rfl, .inr ⟨he, by simp, rfl, rfl, rfl, rfl⟩⟩
  · obtain ⟨herr, hecmd, -, -, hunit, -⟩ := effectOf_frame i s
    exact ⟨hunit, .inl ⟨herr, hecmd⟩⟩

/-- A step changes the transform unit only. -/
theorem exec_step_changes_unit_only (hn : encode i = .step n) (h : exec i s = .next t) : t = { s with unit := t.unit } := by
  rw [exec_step hn] at h
  cases h
  rfl

/-- INIT leaves `P` (rule R40). -/
theorem exec_init_keeps_block (h : exec .init s = .next t) : t.acc.p = s.acc.p := by
  rw [exec_command rfl] at h
  obtain ⟨-, rfl⟩ | ⟨-, f, -, rfl⟩ | ⟨-, -, rfl⟩ := runCommand_cases h
  · rfl
  · rfl
  · rw [effectOf_init, initEffect_acc, freshAccumulator_p]

/-- XFORM leaves all of the accumulator but `H` (rule R104). -/
theorem exec_xform_changes_h_only (h : exec .xform s = .next t) : t.acc = { s.acc with h := t.acc.h } := by
  rw [exec_command rfl] at h
  obtain ⟨-, rfl⟩ | ⟨-, f, -, rfl⟩ | ⟨-, -, rfl⟩ := runCommand_cases h
  · rfl
  · rfl
  · rw [effectOf_xform, xformEffect_acc]

/-- Settles O58: each part is the frame lemma of what an instruction can be. -/
theorem instructionsLeaveOtherRegistersUnchanged : Obligations.InstructionsLeaveOtherRegistersUnchanged := by
  intro i s t h
  obtain ⟨haddr, hlen, hhost, hreads, hdraws⟩ := exec_keeps_operands h
  refine ⟨haddr, hlen, hhost, hreads, hdraws, fun w hw => exec_command_keeps_unit_and_err hw h,
    fun n hn => exec_step_changes_unit_only hn h, ?_, ?_⟩
  · rintro rfl
    exact exec_init_keeps_block h
  · rintro rfl
    exact exec_xform_changes_h_only h

/-! ## The session -/

/-- A step has no line in the table of rule R31. -/
theorem sessionAfter_step (h : encode i = .step n) (before : Session) : sessionAfter i before = before := by
  cases i <;> cases h <;> rfl

/-- No line of the table leads to `NONE`. -/
theorem sessionAfter_eq_NONE {before : Session} (h : sessionAfter i before = .NONE) : before = .NONE := by
  unfold sessionAfter at h
  split at h
  case h_5 => exact h
  all_goals cases h

/-- Settles O53: only a command that takes its effect follows the table, and a step has no line in it. -/
theorem commandsMoveTheSessionAsTheTableSays : Obligations.CommandsMoveTheSessionAsTheTableSays := by
  intro i s t h
  obtain ⟨w, -, ⟨he, rfl⟩ | ⟨-, f, -, rfl⟩ | ⟨he, -, rfl⟩⟩ | ⟨n, hn, rfl⟩ := exec_cases h
  · rw [if_neg fun hnone => he hnone.1]
  · rw [if_neg (by simp), takeFault_sess]
  · rw [if_pos ⟨he, (effectOf_frame i s).1.trans he⟩, effectOf_sess]
  · rw [performStep_sess, sessionAfter_step hn, ite_self]

/-- An instruction that ends with `SESS` NONE began with it. -/
theorem exec_sess_eq_NONE (h : exec i s = .next t) (ht : t.sess = .NONE) : s.sess = .NONE := by
  rw [commandsMoveTheSessionAsTheTableSays i s t h] at ht
  split at ht
  · exact sessionAfter_eq_NONE ht
  · exact ht

end Sys2Proof.Machine
end

section
/-! What a host access and a step of the machine can do, each said once (10_state.md rules R27 to R37). -/

namespace Sys2Proof.Machine

variable {a : HostAccess} {s t : State}

/-! ## The end of a step of the sequencer -/

@[simp] theorem endOfStep_sess (n : BitVec 6) (s : State) : (endOfStep n s).sess = s.sess := by unfold endOfStep; split <;> rfl
@[simp] theorem endOfStep_err (n : BitVec 6) (s : State) : (endOfStep n s).err = s.err := by unfold endOfStep; split <;> rfl
@[simp] theorem endOfStep_ecmd (n : BitVec 6) (s : State) : (endOfStep n s).ecmd = s.ecmd := by unfold endOfStep; split <;> rfl
@[simp] theorem endOfStep_mem (n : BitVec 6) (s : State) : (endOfStep n s).mem = s.mem := by unfold endOfStep; split <;> rfl

/-- The final addition touches neither the count nor `fill`. -/
theorem endOfStep_acc_wf (n : BitVec 6) (s : State) : (endOfStep n s).acc.wf ↔ s.acc.wf := by
  unfold endOfStep; split <;> rfl

/-! ## Host accesses and steps -/

/-- An access that is neither a `CMD` write nor a reset reaches none of the accumulator, `SESS`, `ERR` and `ECMD`, and keeps
memory in canonical form. -/
structure KeepsEngine (s t : State) : Prop where
  acc : t.acc = s.acc
  sess : t.sess = s.sess
  err : t.err = s.err
  ecmd : t.ecmd = s.ecmd
  mem_wf : s.mem.wf → t.mem.wf

/-- A read keeps everything but what the host has read and the draws. -/
theorem keepsEngine_readReg (r : HostReg) (s : State) : KeepsEngine s (readReg r s) := by
  rw [readReg_frame]
  exact ⟨rfl, rfl, rfl, rfl, id⟩

/-- Everything a write to a register can do. -/
theorem writeReg_cases {r : HostReg} {v : Word} (h : writeReg r v s = .next t) : writeCommand v s = .next t ∨ KeepsEngine s t := by
  cases r
  case CMD => exact .inl h
  all_goals
    cases h
    exact .inr ⟨rfl, rfl, rfl, rfl, id⟩

/-- Everything a host access can do: run a command, reset the engine, or keep it. -/
theorem hostAccess_cases (h : hostAccess a s = .next t) :
    (∃ w, writeCommand w s = .next t) ∨ KeepsEngine s t ∨ (a = .reset ∧ t = hardwareReset s) ∨
      ∃ w, a = .commandThenReset w ∧ t = hardwareReset (abandonCommand w s) := by
  cases a with
  | write offset size value =>
    simp only [hostAccess] at h
    split at h
    · cases h
    · exact (writeReg_cases h).imp (⟨value, ·⟩) .inl
  | read offset size =>
    simp only [hostAccess] at h
    split at h
    · cases h
    · cases h
      exact .inr (.inl (keepsEngine_readReg _ _))
  | memWrite addr value =>
    simp only [hostAccess] at h
    split at h
    · next ha =>
      cases h
      exact .inr (.inl ⟨rfl, rfl, rfl, rfl, fun hm => Memory.write_wf hm ha value⟩)
    · cases h
  | memRead addr =>
    simp only [hostAccess] at h
    split at h
    · cases h
      exact .inr (.inl ⟨rfl, rfl, rfl, rfl, id⟩)
    · cases h
  | reset =>
    cases h
    exact .inr (.inr (.inl ⟨rfl, rfl⟩))
  | commandThenReset w =>
    cases h
    exact .inr (.inr (.inr ⟨w, rfl, rfl⟩))

/-- Everything a step can do: a step of the transform in progress, nothing, or the next host access. -/
theorem step_cases (h : step s = .next t) :
    (s.unit.active = true ∧ t = endOfStep s.unit.step (performStep s.unit.step.toNat s)) ∨
      (s.unit.active = false ∧ s.host = [] ∧ t = s) ∨
      (s.unit.active = false ∧ ∃ a rest, s.host = a :: rest ∧ hostAccess a { s with host := rest } = .next t) := by
  cases ha : s.unit.active with
  | true =>
    rw [step_sequencer ha] at h
    cases h
    exact .inl ⟨rfl, rfl⟩
  | false =>
    rw [step_inactive ha, hostStep] at h
    cases hh : s.host with
    | nil =>
      rw [hh] at h
      cases h
      exact .inr (.inl ⟨rfl, rfl, rfl⟩)
    | cons a rest =>
      rw [hh] at h
      exact .inr (.inr ⟨rfl, a, rest, rfl, h⟩)

/-- What the host does next is a reset when its next access is one. -/
theorem resetsNext_of_reset {rest : List HostAccess} (hh : s.host = a :: rest)
    (ha : a = .reset ∨ ∃ w, a = .commandThenReset w) : resetsNext s = true := by
  obtain rfl | ⟨w, rfl⟩ := ha <;> simp only [resetsNext, hh]

/-- Everything a step can do, seen from the engine's registers: a step of the transform in progress, nothing, a command, an access
that keeps the engine, or a reset, the last one only with no transform in progress. -/
theorem step_engine_cases (h : step s = .next t) :
    t = endOfStep s.unit.step (performStep s.unit.step.toNat s) ∨ KeepsEngine s t ∨
      (∃ rest w, writeCommand w { s with host := rest } = .next t) ∨
      (s.unit.active = false ∧ resetsNext s = true ∧
        ∃ rest u, t = hardwareReset u ∧ (u = { s with host := rest } ∨ ∃ w, u = abandonCommand w { s with host := rest })) := by
  obtain ⟨-, ht⟩ | ⟨-, -, rfl⟩ | ⟨ha, a, rest, hh, h⟩ := step_cases h
  · exact .inl ht
  · exact .inr (.inl ⟨rfl, rfl, rfl, rfl, id⟩)
  · obtain ⟨w, hw⟩ | hk | ⟨hr, ht⟩ | ⟨w, hr, ht⟩ := hostAccess_cases h
    · exact .inr (.inr (.inl ⟨rest, w, hw⟩))
    · exact .inr (.inl ⟨hk.acc, hk.sess, hk.err, hk.ecmd, hk.mem_wf⟩)
    · exact .inr (.inr (.inr ⟨ha, resetsNext_of_reset hh (.inl hr), rest, _, ht, .inl rfl⟩))
    · exact .inr (.inr (.inr ⟨ha, resetsNext_of_reset hh (.inr ⟨w, hr⟩), rest, _, ht, .inr ⟨w, rfl⟩⟩))

end Sys2Proof.Machine
end

section
/-! What every step keeps: latched faults, the way out of the session `NONE`, and the machine's invariant (10_state.md rules R25,
R31, R32, R36). -/

namespace Sys2Proof.Machine

variable {i : Instr} {w : Word} {s t : State}

/-- Settles O39: a halted engine discards every `CMD` write, and nothing but a `CMD` write or a reset reaches `ERR` and `ECMD`. -/
theorem faultsAreLatchedUntilReset : Obligations.FaultsAreLatchedUntilReset := by
  intro s t f h hf hno
  obtain rfl | hk | ⟨rest, w, hw⟩ | ⟨ha, hr, -⟩ := step_engine_cases h
  · simpa using hf
  · exact ⟨hk.err.trans hf, hk.ecmd⟩
  · rw [writeCommand_halted w (s := { s with host := rest }) (by simp [hf])] at hw
    cases hw
    exact ⟨hf, rfl⟩
  · simp [ha, hr] at hno

/-- A `CMD` write that ends with `SESS` NONE began with it. -/
theorem writeCommand_sess_eq_NONE (h : writeCommand w s = .next t) (ht : t.sess = .NONE) : s.sess = .NONE := by
  obtain ⟨-, rfl⟩ | ⟨-, -, rfl⟩ | ⟨-, i, -, hi⟩ := writeCommand_cases h
  · exact ht
  · exact ht
  · exact exec_sess_eq_NONE hi ht

/-- Settles O54: no line of the session table leads to NONE, and nothing but a command or a reset writes `SESS`. -/
theorem onlyResetEndsInNoSession : Obligations.OnlyResetEndsInNoSession := by
  intro s t h ht
  obtain rfl | hk | ⟨rest, w, hw⟩ | ⟨ha, hr, -⟩ := step_engine_cases h
  · exact .inl (by simpa using ht)
  · exact .inl (hk.sess.symm.trans ht)
  · exact .inl (writeCommand_sess_eq_NONE (s := { s with host := rest }) hw ht)
  · exact .inr ⟨hr, ha⟩

/-! ## The invariant -/

/-- A command that needs an open session and passes its checks has one (rule R172). -/
theorem sess_eq_OPEN_of_firstFault (hc : firstFault i s = none) (hn : needsSession i = true) : s.sess = .OPEN := by
  by_contra hs
  simp [firstFault, hn, hs] at hc

/-- An effect leaves an accumulator that meets its invariants: a created one, or one that met them. -/
theorem effectOf_acc_wf (hi : encode i = .command w) (hc : firstFault i s = none) (h : s.sess ≠ .NONE → s.acc.wf) :
    (effectOf i s).acc.wf := by
  have hopen : needsSession i = true → s.acc.wf := fun hn => h (by simp [sess_eq_OPEN_of_firstFault hc hn])
  cases i
  case init => exact freshAccumulator_wf _
  case absorbi b => rw [effectOf_absorbi, absorbiEffect_acc]; exact update_wf (hopen rfl) _
  case absorb => rw [effectOf_absorb, absorbEffect_acc]; exact update_wf (hopen rfl) _
  case xform => rw [effectOf_xform, xformEffect_acc]; exact hopen rfl
  case final => rw [effectOf_final, finalEffect_acc]; exact finalize_wf (hopen rfl) _
  case digest => rw [effectOf_digest, digestEffect_acc]; exact computeDigest_wf ..
  case sign => rw [sign_acc, effectOf_digest, digestEffect_acc]; exact computeDigest_wf ..
  all_goals cases hi

/-- An effect keeps memory in canonical form: SIGN's slot lies within the address space by its range check (rule R174). -/
theorem effectOf_mem_wf (hc : firstFault i s = none) (h : s.mem.wf) : (effectOf i s).mem.wf := by
  by_cases hi : i = .sign
  · subst hi
    obtain ⟨hlen, hrange⟩ := checkContainer_eq_none.1 ((checkContainer_eq (.inr rfl) s).trans hc)
    rw [sign_mem]
    refine Memory.writeBytes_wf h _ ?_
    rw [digestBytes_length, operandAddr, Config.memorySize]
    omega
  · rwa [effectOf_mem hi]

/-- Every instruction keeps the invariant. -/
theorem exec_keeps_inv (hs : s.Inv) (h : exec i s = .next t) : t.Inv := by
  obtain ⟨hm, ha, he⟩ := hs
  obtain ⟨w, hw, ⟨-, rfl⟩ | ⟨-, f, -, rfl⟩ | ⟨-, hc, rfl⟩⟩ | ⟨n, -, rfl⟩ := exec_cases h
  · exact ⟨hm, ha, he⟩
  · exact ⟨hm, ha, by simp⟩
  · obtain ⟨herr, hecmd, -⟩ := effectOf_frame i s
    exact ⟨effectOf_mem_wf hc hm, fun _ => effectOf_acc_wf hw hc ha, by rwa [herr, hecmd]⟩
  · exact ⟨hm, ha, he⟩

/-- Every `CMD` write keeps the invariant. -/
theorem writeCommand_keeps_inv (hs : s.Inv) (h : writeCommand w s = .next t) : t.Inv := by
  obtain ⟨-, rfl⟩ | ⟨-, -, rfl⟩ | ⟨-, i, -, hi⟩ := writeCommand_cases h
  · exact hs
  · exact ⟨hs.1, hs.2.1, by simp⟩
  · exact exec_keeps_inv hs hi

/-- Reset during a command keeps memory in canonical form. -/
theorem abandonCommand_mem_wf (w : Word) (h : s.mem.wf) : (abandonCommand w s).mem.wf := by
  obtain heq | ⟨-, -, hlen, hrange, hmem, -⟩ := abandonCommand_cases w s
  · rwa [heq]
  · rw [hmem]
    refine writeSome_wf h _ _ ?_
    rw [digestBytes_length, Config.memorySize]
    omega

/-- A reset establishes the invariant over a memory in canonical form. -/
theorem hardwareReset_inv (h : s.mem.wf) : (hardwareReset s).Inv := ⟨h, by simp, by simp⟩

/-- Settles O51: the state after reset is a reset of itself. -/
theorem resetMeetsTheInvariant : Obligations.ResetMeetsTheInvariant := hardwareReset_inv (s := State.reset) Memory.wf_nil

/-- The sequencer keeps the invariant. -/
theorem endOfStep_performStep_inv (n : BitVec 6) (k : Nat) (h : s.Inv) : (endOfStep n (performStep k s)).Inv := by
  obtain ⟨hm, ha, he⟩ := h
  refine ⟨by simpa using hm, fun hs => (endOfStep_acc_wf _ _).2 (ha (by simpa using hs)), by simpa using he⟩

/-- What keeps the engine keeps the invariant. -/
theorem KeepsEngine.inv (hk : KeepsEngine s t) (h : s.Inv) : t.Inv := by
  obtain ⟨hm, ha, he⟩ := h
  refine ⟨hk.mem_wf hm, ?_, ?_⟩
  · rwa [hk.sess, hk.acc]
  · rwa [hk.err, hk.ecmd]

/-- Settles O52, by the cases of a step: the sequencer, an access that keeps the engine, a `CMD` write, a reset. -/
theorem everyStepKeepsTheInvariant : Obligations.EveryStepKeepsTheInvariant := by
  intro s t hs h
  obtain rfl | hk | ⟨rest, w, hw⟩ | ⟨-, -, rest, u, rfl, rfl | ⟨w, rfl⟩⟩ := step_engine_cases h
  · exact endOfStep_performStep_inv _ _ hs
  · exact hk.inv hs
  · exact writeCommand_keeps_inv (s := { s with host := rest }) hs hw
  · exact hardwareReset_inv hs.1
  · exact hardwareReset_inv (abandonCommand_mem_wf w (s := { s with host := rest }) hs.1)

end Sys2Proof.Machine
end

section
/-! Stale contents (10_state.md rule R43): what a command computes from two accumulators that agree up to stale bytes of `P`, and
that every step keeps two states so related. -/

namespace Sys2Proof.Machine

variable {i : Instr} {w : Word} {s t : State} {x y : Accumulator}

/-! ## Accumulators that differ at most in stale bytes -/

/-- Accumulators that differ at most in bytes of `P` at `fill` and above. -/
structure Accumulator.SameButStale (x y : Accumulator) : Prop where
  h : x.h = y.h
  c0 : x.c0 = y.c0
  c1 : x.c1 = y.c1
  fill : x.fill = y.fill
  p : agreeBelow x.fill.toNat x.p y.p

theorem Accumulator.SameButStale.refl (x : Accumulator) : x.SameButStale x := ⟨rfl, rfl, rfl, rfl, fun _ _ => rfl⟩

/-- One accumulator created over two blocks: at `fill` 0 every byte of `P` is stale. -/
theorem freshAccumulator_sameButStale (p q : Block) : (freshAccumulator p).SameButStale (freshAccumulator q) :=
  ⟨rfl, rfl, rfl, rfl, fun _ hk => absurd hk (Nat.not_lt_zero _)⟩

/-- The byte stored at `fill` extends the agreement by one byte. -/
theorem agreeBelow_putByte {p q : Block} {fill : BitVec 6} (h : agreeBelow fill.toNat p q) (b : Byte) :
    agreeBelow (fill.toNat + 1) (putByte p fill b) (putByte q fill b) := by
  intro k hk
  have hfill := fill.isLt
  rw [byteAt_putByte _ _ _ (by omega), byteAt_putByte _ _ _ (by omega)]
  split
  · rfl
  · exact h k (by omega)

/-- `absorb` transforms `P` only when no byte of it is stale (rule R112). -/
theorem absorb_sameButStale (hxy : x.SameButStale y) (b : Byte) : (absorb x b).SameButStale (absorb y b) := by
  obtain ⟨hh, h0, h1, hf, hp⟩ := hxy
  have hput : agreeBelow (x.fill.toNat + 1) (putByte x.p x.fill b) (putByte y.p x.fill b) := agreeBelow_putByte hp b
  refine ⟨?_, by rw [absorb_c0, absorb_c0, h0], by rw [absorb_c1, absorb_c1, h0, h1],
    BitVec.eq_of_toNat_eq (by rw [absorb_fill, absorb_fill, hf]), ?_⟩
  · rw [absorb_h, absorb_h, ← hf, hh]
    split
    · next hfull => rw [block_ext fun k hk => hput k (by omega)]
    · rfl
  · rw [absorb_p, absorb_p, absorb_fill, ← hf]
    exact fun k hk => hput k (lt_of_lt_of_le hk (Nat.mod_le _ _))

theorem update_sameButStale (hxy : x.SameButStale y) (bs : List Byte) : (update x bs).SameButStale (update y bs) := by
  induction bs generalizing x y with
  | nil => exact hxy
  | cons b bs ih => exact ih (absorb_sameButStale hxy b)

/-- From an empty buffer, finalization gives the same accumulator whatever `P` held. -/
theorem finalize_eq_of_sameButStale (hxy : x.SameButStale y) (hf : x.fill = 0) {tail : List Byte} (hl : tail.length ≤ 63) :
    finalize x tail = finalize y tail :=
  finalize_congr tail hf (hxy.fill ▸ hf) hl hxy.h hxy.c0 (by rw [Accumulator.count, Accumulator.count, hxy.c0, hxy.c1])

/-- ComputeDigest gives the same accumulator whatever the one before held. -/
theorem computeDigest_acc_irrelevant (m : Memory) (base len : Nat) (x y : Accumulator) :
    computeDigest m base len x = computeDigest m base len y :=
  computeDigest_congr x y fun _ _ => rfl

/-! ## States that differ at most in stale contents -/

theorem SameButStale.accumulators (h : SameButStale s t) (hs : s.sess ≠ .NONE) : s.acc.SameButStale t.acc := by
  obtain ⟨hh, h0, h1, hf, hp⟩ := h.acc hs
  exact ⟨hh, h0, h1, hf, hp⟩

theorem SameButStale.operands (h : SameButStale s t) : operandAddr s = operandAddr t ∧ operandLen s = operandLen t :=
  ⟨congrArg BitVec.toNat h.addr, congrArg BitVec.toNat h.len⟩

theorem takeFault_sameButStale (h : SameButStale s t) (f : FaultCode) (w : Word) :
    SameButStale (takeFault f w s) (takeFault f w t) :=
  { h with err := rfl, ecmd := rfl }

theorem performStep_sameButStale (h : SameButStale s t) (k : Nat) : SameButStale (performStep k s) (performStep k t) :=
  { h with unit := congrArg (TransformUnit.performStep (stepRow k)) h.unit }

theorem endOfStep_sameButStale (h : SameButStale s t) (n : BitVec 6) : SameButStale (endOfStep n s) (endOfStep n t) := by
  unfold endOfStep
  split
  · refine { h with unit := ?_, acc := fun hs => ?_ }
    · rw [finishTransform_unit, finishTransform_unit, h.unit]
    · obtain ⟨hh, hrest⟩ := h.acc hs
      exact ⟨by rw [finishTransform_acc, finishTransform_acc, hh, h.unit], hrest⟩
  · exact h

/-- Reset leaves no accumulator to differ in. -/
theorem hardwareReset_sameButStale (h : SameButStale s t) : SameButStale (hardwareReset s) (hardwareReset t) where
  sess := rfl
  err := rfl
  ecmd := rfl
  addr := rfl
  len := rfl
  unit := rfl
  mem := h.mem
  host := h.host
  reads := h.reads
  draws := h.draws
  acc := fun hs => absurd rfl hs

/-! ## Commands -/

/-- The checks read no stale contents: `fill` is looked at in an open session only (rule R178). -/
theorem firstFault_congr (h : SameButStale s t) (i : Instr) : firstFault i s = firstFault i t := by
  have hextent : extentOf i s = extentOf i t := by
    unfold extentOf
    rw [h.len]
  by_cases hs : needsSession i ∧ s.sess ≠ .OPEN
  · rw [firstFault, firstFault, if_pos hs, if_pos (h.sess ▸ hs)]
  · have hfill : i = .final → s.acc.fill = t.acc.fill := by
      rintro rfl
      have hopen : s.sess = .OPEN := by simpa [needsSession] using hs
      exact (h.accumulators (by simp [hopen])).fill
    have htail : (i = .final ∧ (s.acc.fill ≠ 0 ∨ 63 < t.len.toNat)) ↔ (i = .final ∧ (t.acc.fill ≠ 0 ∨ 63 < t.len.toNat)) :=
      and_congr_right fun hi => by rw [hfill hi]
    simp only [firstFault, h.sess, htail, h.len, hextent, h.addr]

/-- An effect whose checks pass computes nothing from stale contents: INIT and the digest commands start afresh, the others need
an open session, and FINAL an empty buffer. -/
theorem effectOf_acc_sameButStale (h : SameButStale s t) (hi : encode i = .command w) (hc : firstFault i s = none) :
    (effectOf i s).acc.SameButStale (effectOf i t).acc := by
  have hopen : needsSession i = true → s.acc.SameButStale t.acc := fun hn =>
    h.accumulators (by simp [sess_eq_OPEN_of_firstFault hc hn])
  obtain ⟨haddr, hlen⟩ := h.operands
  have hdigest : (effectOf .digest s).acc.SameButStale (effectOf .digest t).acc := by
    rw [effectOf_digest, effectOf_digest, digestEffect_acc, digestEffect_acc, h.mem, haddr, hlen,
      computeDigest_acc_irrelevant t.mem _ _ s.acc t.acc]
    exact .refl _
  cases i
  case init => exact freshAccumulator_sameButStale _ _
  case absorbi b =>
    rw [effectOf_absorbi, effectOf_absorbi, absorbiEffect_acc, absorbiEffect_acc]
    exact update_sameButStale (hopen rfl) _
  case absorb =>
    rw [effectOf_absorb, effectOf_absorb, absorbEffect_acc, absorbEffect_acc, h.mem, haddr, hlen]
    exact update_sameButStale (hopen rfl) _
  case xform =>
    rw [effectOf_xform, effectOf_xform, xformEffect_acc, xformEffect_acc, h.mem, haddr, (hopen rfl).h]
    exact { hopen rfl with h := rfl }
  case final =>
    obtain ⟨-, ⟨hfill, htail⟩, -⟩ := checkFinal_eq_none.1 ((checkFinal_eq s).trans hc)
    rw [effectOf_final, effectOf_final, finalEffect_acc, finalEffect_acc, ← h.mem, ← haddr, ← hlen,
      finalize_eq_of_sameButStale (hopen rfl) hfill (by rwa [Memory.slice_length])]
    exact .refl _
  case digest => exact hdigest
  case sign =>
    rw [sign_acc, sign_acc]
    exact hdigest
  all_goals cases hi

theorem effectOf_mem_eq (h : SameButStale s t) (i : Instr) : (effectOf i s).mem = (effectOf i t).mem := by
  by_cases hi : i = .sign
  · subst hi
    obtain ⟨haddr, hlen⟩ := h.operands
    rw [sign_mem, sign_mem, h.mem, haddr, hlen, computeDigest_acc_irrelevant t.mem _ _ s.acc t.acc]
  · rw [effectOf_mem hi, effectOf_mem hi, h.mem]

theorem effectOf_sameButStale (h : SameButStale s t) (hi : encode i = .command w) (hc : firstFault i s = none) :
    SameButStale (effectOf i s) (effectOf i t) := by
  obtain ⟨serr, secmd, saddr, slen, sunit, shost, sreads, sdraws⟩ := effectOf_frame i s
  obtain ⟨terr, tecmd, taddr, tlen, tunit, thost, treads, tdraws⟩ := effectOf_frame i t
  obtain ⟨hh, h0, h1, hf, hp⟩ := effectOf_acc_sameButStale h hi hc
  exact
    { sess := by rw [effectOf_sess, effectOf_sess, h.sess]
      err := by rw [serr, terr, h.err]
      ecmd := by rw [secmd, tecmd, h.ecmd]
      addr := by rw [saddr, taddr, h.addr]
      len := by rw [slen, tlen, h.len]
      unit := by rw [sunit, tunit, h.unit]
      mem := effectOf_mem_eq h i
      host := by rw [shost, thost, h.host]
      reads := by rw [sreads, treads, h.reads]
      draws := by rw [sdraws, tdraws, h.draws]
      acc := fun _ => ⟨hh, h0, h1, hf, hp⟩ }

theorem exec_agree (h : SameButStale s t) (i : Instr) : outcomesAgree (exec i s) (exec i t) := by
  cases hi : encode i with
  | command w =>
    rw [exec_command hi, exec_command hi]
    by_cases he : s.err = none
    · have he' : t.err = none := h.err ▸ he
      cases hc : firstFault i s with
      | some f =>
        rw [runCommand_fault he hc, runCommand_fault he' (firstFault_congr h i ▸ hc)]
        exact takeFault_sameButStale h f w
      | none =>
        rw [runCommand_effect he hc, runCommand_effect he' (firstFault_congr h i ▸ hc)]
        exact effectOf_sameButStale h hi hc
    · rw [runCommand_halted he, runCommand_halted (h.err ▸ he)]
      exact h
  | step n =>
    rw [exec_step hi, exec_step hi]
    exact performStep_sameButStale h _

theorem writeCommand_agree (h : SameButStale s t) (w : Word) : outcomesAgree (writeCommand w s) (writeCommand w t) := by
  by_cases he : s.err = none
  · have he' : t.err = none := h.err ▸ he
    cases hw : decodeCommand w with
    | error e =>
      rw [writeCommand_illegal he hw, writeCommand_illegal he' hw]
      exact takeFault_sameButStale h _ w
    | ok i =>
      rw [writeCommand_legal he hw, writeCommand_legal he' hw]
      exact exec_agree h i
  · rw [writeCommand_halted w he, writeCommand_halted w (h.err ▸ he)]
    exact h

/-! ## Host accesses and steps -/

/-- A register shows no stale contents: before the first accumulator the registers that could are not shown (rule R39). -/
theorem regView_congr (h : SameButStale s t) {r : HostReg} (hr : s.sess ≠ .NONE ∨ drawWidth r = none) :
    regView r s = regView r t := by
  have hacc : drawWidth r ≠ none → s.acc.SameButStale t.acc := fun hw => h.accumulators (hr.resolve_right hw)
  cases r
  case CMD => rfl
  case STATUS => simp only [regView, statusWord, h.err, h.sess]
  case ADDR => exact h.addr
  case LEN => exact h.len
  case ECMD => exact h.ecmd
  case C0 => exact (hacc (by simp [drawWidth])).c0
  case C1 => exact (hacc (by simp [drawWidth])).c1
  case FILL => simp only [regView, (hacc (by simp [drawWidth])).fill]
  all_goals simp only [regView, (hacc (by simp [drawWidth])).h]

/-- Settles O56: a register that a read shows holds no stale contents. -/
theorem staleContentsCannotBeObserved : Obligations.StaleContentsCannotBeObserved := by
  intro s t h
  have hread : ∀ r, readable r s = readable r t := fun r => by
    unfold readable
    rw [← h.sess]
    split
    · rfl
    · next hr => rw [regView_congr h (by rwa [not_and_or, not_not] at hr)]
  rw [observe, observe, funext hread, h.mem]

theorem returnRead_sameButStale (h : SameButStale s t) (v : Word) : SameButStale (returnRead v s) (returnRead v t) :=
  { h with reads := congrArg (v :: ·) h.reads }

theorem readReg_sameButStale (h : SameButStale s t) (r : HostReg) : SameButStale (readReg r s) (readReg r t) := by
  by_cases hs : s.sess = .NONE
  · cases hw : drawWidth r with
    | some width =>
      rw [readReg_free hw hs, readReg_free hw (h.sess ▸ hs), h.draws]
      exact returnRead_sameButStale (s := { s with draws := t.draws + 1 }) (t := { t with draws := t.draws + 1 })
        { h with draws := rfl } _
    | none =>
      rw [readReg_specified hw, readReg_specified hw, regView_congr h (.inr hw)]
      exact returnRead_sameButStale h _
  · rw [readReg_created r hs, readReg_created r (h.sess ▸ hs), regView_congr h (.inl hs)]
    exact returnRead_sameButStale h _

theorem writeReg_agree (h : SameButStale s t) (r : HostReg) (v : Word) : outcomesAgree (writeReg r v s) (writeReg r v t) := by
  cases r
  case CMD => exact writeCommand_agree h v
  case ADDR => exact { h with addr := rfl }
  case LEN => exact { h with len := rfl }
  all_goals exact h

theorem checkContainer_congr (h : SameButStale s t) : checkContainer s = checkContainer t := by
  rw [checkContainer_eq (.inl rfl), checkContainer_eq (.inl rfl), firstFault_congr h]

/-- What reset leaves of a SIGN is made of the digest and free choices, neither of them stale. -/
theorem abandonCommand_sameButStale (h : SameButStale s t) (w : Word) :
    SameButStale (abandonCommand w s) (abandonCommand w t) := by
  unfold abandonCommand
  rw [← h.err, ← checkContainer_congr h]
  split
  · obtain ⟨haddr, hlen⟩ := h.operands
    refine { h with err := rfl, mem := ?_, draws := congrArg (· + 16) h.draws }
    rw [digestEffect_acc, digestEffect_acc, h.mem, h.draws, haddr, hlen, computeDigest_acc_irrelevant t.mem _ _ s.acc t.acc]
  · exact h

theorem hostAccess_agree (h : SameButStale s t) (a : HostAccess) : outcomesAgree (hostAccess a s) (hostAccess a t) := by
  cases a with
  | write offset size value =>
    simp only [hostAccess]
    split
    · rfl
    · exact writeReg_agree h _ value
  | read offset size =>
    simp only [hostAccess]
    split
    · rfl
    · exact readReg_sameButStale h _
  | memWrite addr value =>
    simp only [hostAccess]
    split
    · exact { h with mem := by rw [h.mem] }
    · rfl
  | memRead addr =>
    simp only [hostAccess, h.mem]
    split
    · exact returnRead_sameButStale h _
    · rfl
  | reset => exact hardwareReset_sameButStale h
  | commandThenReset w => exact hardwareReset_sameButStale (abandonCommand_sameButStale h w)

/-- Settles O55: the related states take the same step of the sequencer, or the same host access. -/
theorem staleContentsReachNothing : Obligations.StaleContentsReachNothing := by
  intro s t h
  cases ha : s.unit.active with
  | true =>
    rw [step_sequencer ha, step_sequencer (h.unit ▸ ha), ← h.unit]
    exact endOfStep_sameButStale (performStep_sameButStale h _) _
  | false =>
    rw [step_inactive ha, step_inactive (h.unit ▸ ha), hostStep, hostStep, ← h.host]
    cases s.host with
    | nil => exact h
    | cons a rest =>
      exact hostAccess_agree (s := { s with host := rest }) (t := { t with host := rest }) { h with host := rfl } a

end Sys2Proof.Machine
end

section
/-! Runs of the machine through a transform in progress (10_state.md rule R27, 40_block_transform.md rule R99). -/

namespace Sys2Proof.Machine

/-- A step before the last one advances the unit and leaves the rest. -/
theorem step_advances_unit (s : State) {u : TransformUnit} (ha : u.active = true) (hu : u.step ≠ 63) :
    step { s with unit := u } = .next { s with unit := u.performStep (stepRow u.step.toNat) } := by
  rw [step_unit s u ha, endOfStep, if_neg hu]
  rfl

/-- The last step advances the unit, adds the working registers into `H` and ends the transform. -/
theorem step_ends_transform (s : State) {u : TransformUnit} (ha : u.active = true) (hu : u.step = 63) :
    step { s with unit := u } =
      .next { s with
        acc := { s.acc with h := addBack s.acc.h (u.performStep (stepRow u.step.toNat)) }
        unit := { u.performStep (stepRow u.step.toNat) with active := false } } := by
  rw [step_unit s u ha, endOfStep, if_pos hu]
  rfl

/-- Before the last step of a transform, the machine has run the unit that far and nothing else. -/
theorem run_beginTransform (s : State) (blk : Block) {n : Nat} (hn : n < 64) :
    Host.Core.run core n (beginTransform blk s) = .next { s with unit := unitAfter (TransformUnit.seed s.acc.h blk) n } := by
  induction n with
  | zero =>
    rw [unitAfter_zero]
    rfl
  | succ n ih =>
    have hstep : (unitAfter (TransformUnit.seed s.acc.h blk) n).step.toNat = n :=
      (unitAfter_step _ rfl n).trans (Nat.mod_eq_of_lt (by omega))
    have hlast : (unitAfter (TransformUnit.seed s.acc.h blk) n).step ≠ 63 := fun h => by simp [h] at hstep; omega
    rw [core_run_succ (ih (by omega)), step_advances_unit s (unitAfter_active _ n) hlast, hstep, unitAfter_succ]
    rfl

/-- The 64th step leaves `Transform(H, B)` in `H` and the unit at rest. -/
theorem run_beginTransform_last (s : State) (blk : Block) :
    ∃ u : TransformUnit, Host.Core.run core (63 + 1) (beginTransform blk s) =
      .next { s with acc := { s.acc with h := transform s.acc.h blk }, unit := u } ∧ u.active = false := by
  have hstep : (unitAfter (TransformUnit.seed s.acc.h blk) 63).step.toNat = 63 := unitAfter_step _ rfl 63
  have h64 : unitAfter (TransformUnit.seed s.acc.h blk) 64 = _ := unitAfter_succ _ 63
  refine ⟨{ unitAfter (TransformUnit.seed s.acc.h blk) 64 with active := false }, ?_, rfl⟩
  rw [core_run_succ (run_beginTransform s blk (by omega)),
    step_ends_transform s (unitAfter_active _ 63) (BitVec.eq_of_toNat_eq hstep), hstep, transform_eq, h64]
  rfl

/-- Settles O13, by induction on the steps before the last one. -/
theorem sixtyFourStepsAreTheTransform : Obligations.SixtyFourStepsAreTheTransform := by
  intro s blk
  refine ⟨fun n hn => ⟨_, run_beginTransform s blk hn, ?_, unitAfter_active _ n, unitAfter_x _ n⟩,
    run_beginTransform_last s blk⟩
  rw [unitAfter_step _ rfl, Nat.mod_eq_of_lt hn]

/-- Settles O41: the step decoder never rejects, so the selected step is the one decoded. -/
theorem theSequencerRunsTheSelectedStep : Obligations.TheSequencerRunsTheSelectedStep := by
  intro s t i ha hd h
  cases hd
  rw [step_active ha, sequencerStep, h]
  rfl

end Sys2Proof.Machine
end

section
/-! The host port: what one step does with each access (10_state.md rules R28 to R39). -/

namespace Sys2Proof.Machine

variable {s : State} {rest : List HostAccess}

/-! ## Every answer there is -/

/-- A `CMD` write always answers a next state. -/
theorem writeCommand_next (w : Word) (s : State) : ∃ t, writeCommand w s = .next t := by
  by_cases he : s.err = none
  · cases hw : decodeCommand w with
    | error e => exact ⟨_, writeCommand_illegal he hw⟩
    | ok i => exact writeCommand_legal he hw ▸ exec_next i s
  · exact ⟨s, writeCommand_halted w he⟩

/-- A write to a register always answers a next state. -/
theorem writeReg_next (r : HostReg) (v : Word) (s : State) : ∃ t, writeReg r v s = .next t := by
  cases r
  case CMD => exact writeCommand_next v s
  all_goals exact ⟨_, rfl⟩

/-- Settles O47: `regAt` finds a register exactly where `accessWf` holds. -/
theorem onlyAlignedWordAccessesAreDefined : Obligations.OnlyAlignedWordAccessesAreDefined := by
  intro s rest offset size v ha
  rw [step_access _ _ ha, step_access _ _ ha, hostAccess, hostAccess]
  cases hr : regAt offset size with
  | none =>
    have hwf : accessWf offset size = false := (regAt_eq_none_iff offset size).1 hr
    exact ⟨fun _ => ⟨rfl, rfl⟩, fun h => absurd h (by simp [hwf])⟩
  | some r =>
    have hwf : accessWf offset size ≠ false := fun h => by simp [(regAt_eq_none_iff offset size).2 h] at hr
    exact ⟨fun h => absurd h hwf, fun _ => ⟨⟨_, rfl⟩, writeReg_next r v _⟩⟩

/-! ## Steps that take an access -/

/-- With no transform in progress and an access pending, a step is that access. -/
theorem step_of_host {a : HostAccess} (ha : s.unit.active = false) (hh : s.host = a :: rest) :
    step s = hostAccess a { s with host := rest } := by
  rw [step_inactive ha, hostStep, hh]

/-- Settles O40: the access reaches `CMD`, and a legal word runs in an engine that is not halted. -/
theorem aCommandWriteRunsTheDecodedInstruction : Obligations.ACommandWriteRunsTheDecodedInstruction := by
  refine ⟨fun s w i rest ha hh he hw => ?_, fun s ha hh => ?_⟩
  · calc step s = hostAccess (.write HostReg.CMD.offset 4 w) { s with host := rest } := step_of_host ha hh
      _ = writeCommand w { s with host := rest } := hostAccess_write .CMD w _
      _ = exec i { s with host := rest } := writeCommand_legal (s := { s with host := rest }) he hw
  · rw [step_inactive ha, hostStep, hh]

/-- Settles O49: the access is `hardwareReset`, field by field. -/
theorem resetGivesTheResetValues : Obligations.ResetGivesTheResetValues :=
  ⟨fun _ _ ha hh => ⟨_, step_of_host ha hh, rfl, rfl, rfl, rfl, rfl, rfl, rfl⟩, rfl, rfl, rfl, rfl, rfl⟩

/-- A step that reads a register. -/
theorem step_read (ha : s.unit.active = false) (r : HostReg) (rest : List HostAccess) :
    step { s with host := .read r.offset 4 :: rest } = .next (readReg r { s with host := rest }) := by
  rw [step_access _ _ ha, hostAccess_read]

/-- A step that writes a register. -/
theorem step_write (ha : s.unit.active = false) (r : HostReg) (v : Word) (rest : List HostAccess) :
    step { s with host := .write r.offset 4 v :: rest } = writeReg r v { s with host := rest } := by
  rw [step_access _ _ ha, hostAccess_write]

/-- A read of a register that is specified in `s` returns what the register shows and changes nothing else. -/
theorem step_read_shown (ha : s.unit.active = false) {r : HostReg} (hr : s.sess ≠ .NONE ∨ drawWidth r = none)
    (rest : List HostAccess) :
    step { s with host := .read r.offset 4 :: rest } = .next { s with host := rest, reads := regView r s :: s.reads } := by
  rw [step_read ha]
  obtain hs | hw := hr
  · rw [readReg_created r (s := { s with host := rest }) hs]
    cases r <;> rfl
  · rw [readReg_specified hw]
    cases r <;> rfl

/-- A read of a register that is not specified yet returns a free draw and advances the count of draws. -/
theorem step_read_free (ha : s.unit.active = false) (hs : s.sess = .NONE) {r : HostReg} {width : Nat}
    (hw : drawWidth r = some width) (rest : List HostAccess) :
    step { s with host := .read r.offset 4 :: rest } =
      .next { s with host := rest, reads := freeDraw s.draws width :: s.reads, draws := s.draws + 1 } := by
  rw [step_read ha, readReg_free hw (s := { s with host := rest }) hs]
  rfl

/-- A write to a read-only register is discarded (rule R37). -/
theorem writeReg_readOnly {r : HostReg} (hr : r ≠ .CMD ∧ r ≠ .ADDR ∧ r ≠ .LEN) (v : Word) (s : State) :
    writeReg r v s = .next s := by
  obtain ⟨hcmd, haddr, hlen⟩ := hr
  cases r
  case CMD => exact absurd rfl hcmd
  case ADDR => exact absurd rfl haddr
  case LEN => exact absurd rfl hlen
  all_goals rfl

/-- Settles O44: the first four registers are never a free draw, the others not once an accumulator exists. -/
theorem registerReadsShowTheirRegisters : Obligations.RegisterReadsShowTheirRegisters := by
  intro s rest ha
  simp only [List.forall_mem_cons, List.not_mem_nil, false_implies, implies_true, and_true]
  have hspecified (r : HostReg) (hr : drawWidth r = none) := step_read_shown ha (.inr hr) rest
  refine ⟨⟨hspecified .CMD rfl, hspecified .ADDR rfl, hspecified .LEN rfl, hspecified .ECMD rfl⟩, fun hs => ?_⟩
  have hcreated (r : HostReg) := step_read_shown ha (r := r) (.inl hs) rest
  exact ⟨hcreated .H0, hcreated .H1, hcreated .H2, hcreated .H3, hcreated .C0, hcreated .C1, hcreated .FILL⟩

/-- A full-width draw is the free value itself. -/
theorem freeDraw_word (n : Nat) : freeDraw n 32 = Config.freeWord n := by
  rw [freeDraw, Nat.mod_eq_of_lt (BitVec.isLt _), BitVec.ofNat_toNat, BitVec.setWidth_eq]

/-- A draw of `FILL` is the free value modulo 64. -/
theorem freeDraw_fill_toNat (n : Nat) : (freeDraw n 6).toNat = (Config.freeWord n).toNat % 64 := by
  rw [freeDraw, BitVec.toNat_ofNat]
  omega

/-- Settles O45: the draw is of 32 bits but for `FILL`, whose six bits keep it below 64. -/
theorem unspecifiedReadsAreFreeDraws : Obligations.UnspecifiedReadsAreFreeDraws := by
  intro s rest ha hs
  simp only [List.forall_mem_cons, List.not_mem_nil, false_implies, implies_true, and_true]
  have hword (r : HostReg) (hr : drawWidth r = some 32) := freeDraw_word s.draws ▸ step_read_free ha hs hr rest
  exact ⟨⟨hword .H0 rfl, hword .H1 rfl, hword .H2 rfl, hword .H3 rfl, hword .C0 rfl, hword .C1 rfl⟩,
    freeDraw s.draws 6, freeDraw_fill_toNat s.draws, step_read_free ha hs (r := .FILL) rfl rest⟩

/-- Settles O46, register by register. -/
theorem onlyOperandRegistersTakeHostWrites : Obligations.OnlyOperandRegistersTakeHostWrites := by
  intro s rest v ha
  simp only [List.forall_mem_cons, List.not_mem_nil, false_implies, implies_true, and_true]
  have hreadOnly (r : HostReg) (hr : r ≠ .CMD ∧ r ≠ .ADDR ∧ r ≠ .LEN) :=
    (step_write ha r v rest).trans (writeReg_readOnly hr v { s with host := rest })
  exact ⟨step_write ha .ADDR v rest, step_write ha .LEN v rest,
    hreadOnly .STATUS (by decide), hreadOnly .H0 (by decide), hreadOnly .H1 (by decide), hreadOnly .H2 (by decide),
    hreadOnly .H3 (by decide), hreadOnly .C0 (by decide), hreadOnly .C1 (by decide), hreadOnly .FILL (by decide),
    hreadOnly .ECMD (by decide)⟩

/-! ## STATUS -/

theorem sessionValue_lt (x : Session) : x.value < 4 := by cases x <;> decide

theorem errValue_lt (e : Option FaultCode) : errValue e < 16 := by
  cases e with
  | none => decide
  | some f => cases f <;> decide

/-- `SESS` in bits 1:0, zeros in 3:2, `ERR` in 7:4, zeros above (rule R30). -/
theorem statusWord_fields (s : State) :
    (statusWord s).extractLsb' 0 2 = BitVec.ofNat 2 s.sess.value ∧ (statusWord s).extractLsb' 2 2 = 0 ∧
      (statusWord s).extractLsb' 4 4 = BitVec.ofNat 4 (errValue s.err) ∧ (statusWord s).extractLsb' 8 24 = 0 := by
  have hs := sessionValue_lt s.sess
  have he := errValue_lt s.err
  refine ⟨?_, ?_, ?_, ?_⟩ <;>
    · apply BitVec.eq_of_toNat_eq
      simp only [statusWord, BitVec.extractLsb'_toNat, Nat.shiftRight_eq_div_pow, BitVec.toNat_ofNat, BitVec.ofNat_eq_ofNat]
      omega

/-- Settles O43: `STATUS` is never a free draw, its fields are those of `statusWord`, and it is read-only. -/
theorem statusShowsSessionAndFault : Obligations.StatusShowsSessionAndFault := by
  have hread (s : State) (rest : List HostAccess) (ha : s.unit.active = false) :=
    step_read_shown ha (r := .STATUS) (.inr rfl) rest
  refine ⟨fun s rest ha => ⟨⟨statusWord s, hread s rest ha, ?_⟩,
    fun v => (step_write ha .STATUS v rest).trans (writeReg_readOnly (by decide) v _)⟩, hread State.reset [] rfl⟩
  obtain ⟨hsess, hlow, herr, hhigh⟩ := statusWord_fields s
  refine ⟨hsess.trans ?_, hlow, herr.trans ?_, hhigh⟩
  · cases s.sess <;> rfl
  · cases s.err with
    | none => rfl
    | some f => cases f <;> rfl

end Sys2Proof.Machine
end

section
/-! Container memory (20_memory.md rules R50 to R64): what an instruction stores, and the host's own accesses. -/

namespace Sys2Proof.Machine

variable {i : Instr} {s t : State} {a : Nat}

/-! ## What an instruction stores -/

/-- An instruction leaves memory as it was, or is a SIGN that takes its effect. -/
theorem exec_mem_cases (h : exec i s = .next t) : t.mem = s.mem ∨ (i = .sign ∧ t = effectOf .sign s) := by
  obtain ⟨w, -, ⟨-, rfl⟩ | ⟨-, f, -, rfl⟩ | ⟨-, -, rfl⟩⟩ | ⟨n, -, rfl⟩ := exec_cases h
  · exact .inl rfl
  · exact .inl (takeFault_mem ..)
  · by_cases hi : i = .sign
    · exact .inr ⟨hi, hi ▸ rfl⟩
    · exact .inl (effectOf_mem hi s)
  · exact .inl (performStep_mem ..)

/-- The effect of SIGN keeps every byte outside the slot (rule R53). -/
theorem sign_mem_outside (s : State) (ha : a < operandAddr s + 4 ∨ operandAddr s + 20 ≤ a) :
    (effectOf .sign s).mem.read a = s.mem.read a := by
  rw [sign_mem]
  refine Memory.read_writeBytes_outside _ _ ?_
  rw [digestBytes_length]
  omega

/-- Settles O57: the one effect that stores is SIGN's, sixteen byte writes from `ADDR + 4` on. -/
theorem onlySignStoresAndOnlyInTheSlot : Obligations.OnlySignStoresAndOnlyInTheSlot := by
  intro i s t h
  obtain hmem | ⟨hi, rfl⟩ := exec_mem_cases h
  · exact ⟨fun _ a => by rw [hmem], fun a _ => by rw [hmem]⟩
  · exact ⟨fun hn => absurd hi hn, fun a ha => sign_mem_outside s ha⟩

/-! ## The host's accesses to memory -/

/-- A step that stores a byte for the host. -/
theorem step_memWrite (hu : s.unit.active = false) (ha : a < Config.memorySize) (v : Byte) (rest : List HostAccess) :
    step { s with host := .memWrite a v :: rest } = .next { s with host := rest, mem := s.mem.write a v } := by
  rw [step_access _ _ hu, hostAccess, if_pos ha]

/-- A step that reads a byte for the host. -/
theorem step_memRead (hu : s.unit.active = false) (ha : a < Config.memorySize) (rest : List HostAccess) :
    step { s with host := .memRead a :: rest } =
      .next { s with host := rest, reads := (s.mem.read a).setWidth 32 :: s.reads } := by
  rw [step_access _ _ hu, hostAccess, if_pos ha, returnRead]

/-- A host access to an address that does not exist stops (rule R50; log 9). -/
theorem step_noSuchAddress (hu : s.unit.active = false) (ha : Config.memorySize ≤ a) (v : Byte) (rest : List HostAccess) :
    step { s with host := .memWrite a v :: rest } = .fault (.noSuchAddress a) ∧
      step { s with host := .memRead a :: rest } = .fault (.noSuchAddress a) := by
  rw [step_access _ _ hu, step_access _ _ hu, hostAccess, hostAccess, if_neg (Nat.not_lt.2 ha), if_neg (Nat.not_lt.2 ha)]
  exact ⟨rfl, rfl⟩

/-- Settles O48: the store is one `Memory.write`, whose byte reads back in a memory in canonical form. -/
theorem hostMemoryAccessesReadAndWriteBytes : Obligations.HostMemoryAccessesReadAndWriteBytes := by
  intro s rest a v hu hm
  refine ⟨fun ha => ⟨_, step_memWrite hu ha v rest, rfl, ?_, ?_⟩, fun ha => step_memRead hu ha rest,
    fun ha => step_noSuchAddress hu ha v rest⟩
  · exact Memory.read_write_same hm a v
  · exact fun b hb => Memory.read_write_other s.mem v hb

end Sys2Proof.Machine
end

section
/-! Decoding and encoding (30_encoding.md rules R70 to R83): a command word is its four fields, the command decoder is the inverse
of the encoder, and what the opcode map, the assembler lines and a placed table word say follows from that. -/

namespace Sys2Proof.Machine

variable {i : Instr} {v w : Word} {op : BitVec 4} {b : Byte} {n : BitVec 6}

/-! ## The fields of a command word (rule R70) -/

theorem opField_toNat (w : Word) : (opField w).toNat = w.toNat % 16 := by simp [opField]

theorem reservedLow_toNat (w : Word) : (reservedLow w).toNat = w.toNat / 16 % 16 := by
  simp [reservedLow, Nat.shiftRight_eq_div_pow]

theorem imm8Field_toNat (w : Word) : (imm8Field w).toNat = w.toNat / 256 % 256 := by
  simp [imm8Field, Nat.shiftRight_eq_div_pow]

theorem reservedHigh_toNat (w : Word) : (reservedHigh w).toNat = w.toNat / 65536 % 65536 := by
  simp [reservedHigh, Nat.shiftRight_eq_div_pow]

theorem commandWord_toNat (op : BitVec 4) (b : Byte) : (commandWord op b).toNat = op.toNat + 256 * b.toNat := by
  rw [commandWord, BitVec.toNat_ofNat]
  omega

/-- The four fields make up the word. -/
theorem word_eq_iff_fields : v = w ↔
    opField v = opField w ∧ reservedLow v = reservedLow w ∧ imm8Field v = imm8Field w ∧ reservedHigh v = reservedHigh w := by
  simp only [← BitVec.toNat_inj, opField_toNat, reservedLow_toNat, imm8Field_toNat, reservedHigh_toNat]
  omega

@[simp] theorem opField_commandWord (op : BitVec 4) (b : Byte) : opField (commandWord op b) = op := by
  rw [← BitVec.toNat_inj, opField_toNat, commandWord_toNat]
  omega

@[simp] theorem reservedLow_commandWord (op : BitVec 4) (b : Byte) : reservedLow (commandWord op b) = 0 := by
  rw [← BitVec.toNat_inj, reservedLow_toNat, commandWord_toNat]
  change _ = 0
  omega

@[simp] theorem imm8Field_commandWord (op : BitVec 4) (b : Byte) : imm8Field (commandWord op b) = b := by
  rw [← BitVec.toNat_inj, imm8Field_toNat, commandWord_toNat]
  omega

@[simp] theorem reservedHigh_commandWord (op : BitVec 4) (b : Byte) : reservedHigh (commandWord op b) = 0 := by
  rw [← BitVec.toNat_inj, reservedHigh_toNat, commandWord_toNat]
  change _ = 0
  omega

/-- A word is its opcode and its immediate exactly when its reserved bits are 0. -/
theorem eq_commandWord_iff :
    w = commandWord op b ↔ opField w = op ∧ reservedLow w = 0 ∧ imm8Field w = b ∧ reservedHigh w = 0 := by
  rw [word_eq_iff_fields, opField_commandWord, reservedLow_commandWord, imm8Field_commandWord, reservedHigh_commandWord]

/-! ## The decoders are the inverse of the encoder -/

/-- Each row of the opcode map (rule R71) gives an instruction whose code is the word decoded. -/
theorem encode_of_decodeCommand_commandWord (h : decodeCommand (commandWord op b) = .ok i) :
    encode i = .command (commandWord op b) := by
  have hop : op = BitVec.ofNat 4 op.toNat := by simp
  rw [decodeCommand, if_neg (by simp), opField_commandWord, imm8Field_commandWord] at h
  split at h
  case h_2 hk =>
    cases h
    rw [hop, hk]
    rfl
  case h_8 => cases h
  all_goals
    next hk =>
      obtain ⟨rfl, rfl⟩ := plainCommand_ok h
      rw [hop, hk]
      rfl

/-- The command decoder and the encoder are inverse to each other (rules R71, R74). -/
theorem decodeCommand_eq_ok_iff : decodeCommand w = .ok i ↔ encode i = .command w := by
  refine ⟨fun h => ?_, fun h => ?_⟩
  · have hw := decodeCommand_fields h
    rw [hw] at h ⊢
    exact encode_of_decodeCommand_commandWord h
  · cases i <;> cases h
    case absorbi.refl b => simp [decodeCommand]
    all_goals rfl

/-- The step decoder and the encoder are inverse to each other (rules R76, R79). -/
theorem decodeStep_eq_iff : decodeStep n = i ↔ encode i = .step n := by
  constructor
  · rintro rfl
    exact (by decide : ∀ n, encode (decodeStep n) = .step n) n
  · intro h
    cases i <;> cases h <;> rfl

/-- Settles O4: the two decoders invert the encoder. -/
theorem decodeOfEncodeIsTheInstruction : Obligations.DecodeOfEncodeIsTheInstruction := by
  intro i
  cases hc : encode i with
  | command w => exact decodeCommand_eq_ok_iff.2 hc
  | step n => exact congrArg Except.ok (decodeStep_eq_iff.2 hc)

/-- Settles O5: the encoder inverts the two decoders. -/
theorem encodeOfDecodeIsTheCode : Obligations.EncodeOfDecodeIsTheCode := by
  intro c i h
  cases c with
  | command w => exact decodeCommand_eq_ok_iff.1 h
  | step n => exact decodeStep_eq_iff.1 (Except.ok.inj h)

/-! ## The opcode map and the illegal words -/

/-- A command with no immediate: its mask is the whole word (rule R71). -/
theorem decodeCommand_eq_ok_iff_fullMask (h : encode i = .command v) : decodeCommand w = .ok i ↔ w &&& 0xFFFFFFFF = v := by
  have hmask : w &&& 0xFFFFFFFF = w := BitVec.and_allOnes
  rw [decodeCommand_eq_ok_iff, h, Code.command.injEq, hmask, eq_comm]

/-- ABSORBI's mask keeps every field but `imm8` (rules R71, R72). -/
theorem absorbiMask_iff :
    w &&& 0xFFFF00FF = 0x00000002 ↔ opField w = 2 ∧ reservedLow w = 0 ∧ reservedHigh w = 0 := by
  have hop : opField (w &&& 0xFFFF00FF) = opField w := BitVec.extractLsb'_and.trans BitVec.and_allOnes
  have hlow : reservedLow (w &&& 0xFFFF00FF) = reservedLow w := BitVec.extractLsb'_and.trans BitVec.and_allOnes
  have himm : imm8Field (w &&& 0xFFFF00FF) = 0 := BitVec.extractLsb'_and.trans BitVec.and_zero
  have hhigh : reservedHigh (w &&& 0xFFFF00FF) = reservedHigh w := BitVec.extractLsb'_and.trans BitVec.and_allOnes
  rw [show (2 : Word) = commandWord 2 0 from rfl, eq_commandWord_iff, hop, hlow, himm, hhigh]
  simp only [true_and]

/-- The word of an ABSORBI: its byte is bits 15:8 (rule R72). -/
theorem decodeCommand_eq_absorbi_iff :
    decodeCommand w = .ok (.absorbi b) ↔ w &&& 0xFFFF00FF = 0x00000002 ∧ b = w.extractLsb' 8 8 := by
  rw [decodeCommand_eq_ok_iff, encode, Code.command.injEq, eq_comm, eq_commandWord_iff, absorbiMask_iff]
  exact ⟨fun ⟨hop, hlow, himm, hhigh⟩ => ⟨⟨hop, hlow, hhigh⟩, himm.symm⟩,
    fun ⟨⟨hop, hlow, hhigh⟩, himm⟩ => ⟨hop, hlow, himm.symm, hhigh⟩⟩

/-- Settles O2: a decoded word is the encoded command, and a mask keeps the fields the row fixes. -/
theorem commandsDecodeByMaskAndMatch : Obligations.CommandsDecodeByMaskAndMatch := fun _ =>
  ⟨decodeCommand_eq_ok_iff_fullMask rfl, fun _ => decodeCommand_eq_absorbi_iff, decodeCommand_eq_ok_iff_fullMask rfl,
    decodeCommand_eq_ok_iff_fullMask rfl, decodeCommand_eq_ok_iff_fullMask rfl, decodeCommand_eq_ok_iff_fullMask rfl,
    decodeCommand_eq_ok_iff_fullMask rfl⟩

/-- Every opcode from 1 to 7 is a command, with any immediate where it is ABSORBI's and with 0 elsewhere (rules R70, R71). -/
theorem exists_encode_eq (hop : 1 ≤ op.toNat ∧ op.toNat ≤ 7) (hb : b = 0 ∨ op.toNat = 2) :
    ∃ i, encode i = .command (commandWord op b) := by
  obtain rfl | rfl | rfl | rfl | rfl | rfl | rfl :
      op = 1 ∨ op = 2 ∨ op = 3 ∨ op = 4 ∨ op = 5 ∨ op = 6 ∨ op = 7 := by bv_omega
  case inr.inl => exact ⟨.absorbi b, rfl⟩
  all_goals obtain rfl := hb.resolve_right (by decide)
  · exact ⟨.init, rfl⟩
  · exact ⟨.absorb, rfl⟩
  · exact ⟨.xform, rfl⟩
  · exact ⟨.final, rfl⟩
  · exact ⟨.digest, rfl⟩
  · exact ⟨.sign, rfl⟩

/-- The fields of a legal word (rules R70, R71, R74). -/
theorem exists_decodeCommand_iff :
    (∃ i, decodeCommand w = .ok i) ↔ reservedLow w = 0 ∧ reservedHigh w = 0 ∧
      (1 ≤ (opField w).toNat ∧ (opField w).toNat ≤ 7) ∧ (imm8Field w = 0 ∨ (opField w).toNat = 2) := by
  simp only [decodeCommand_eq_ok_iff]
  constructor
  · rintro ⟨i, hi⟩
    cases i <;> cases hi <;> simp
  · rintro ⟨hlow, hhigh, hop, himm⟩
    rw [eq_commandWord_iff.2 ⟨rfl, hlow, rfl, hhigh⟩]
    exact exists_encode_eq hop himm

/-- Settles O3: a word is illegal where a field of a legal word differs, and the `CMD` write of an illegal word is a fault. -/
theorem illegalWordsRaiseIllegalCommand : Obligations.IllegalWordsRaiseIllegalCommand := by
  intro w illegal
  have hiff : illegal ↔ ∀ i, decodeCommand w ≠ .ok i := by
    rw [← not_exists, exists_decodeCommand_iff]
    have hop : 1 ≤ (opField w).toNat ∧ (opField w).toNat ≤ 7 ↔ ¬((opField w).toNat = 0 ∨ 8 ≤ (opField w).toNat) := by omega
    rw [hop]
    simp only [illegal, opField, reservedLow, imm8Field, reservedHigh]
    tauto
  refine ⟨hiff, fun s he hill => ?_⟩
  cases hw : decodeCommand w with
  | ok i => exact absurd hw (hiff.1 hill i)
  | error e => exact writeCommand_illegal he hw

/-- Settles O1, by evaluating the two decoders on the words. -/
theorem wordsOfTheSpecDecode : Obligations.WordsOfTheSpecDecode := by
  unfold Obligations.WordsOfTheSpecDecode
  decide

/-! ## The assembler's lines (rules R81, R82) -/

/-- The word of an ABSORBI line is the code of its command. -/
theorem encode_absorbi_ofNat {k : Nat} (hk : k < 256) :
    encode (.absorbi (BitVec.ofNat 8 k)) = .command (BitVec.ofNat 32 (0x2 + 256 * k)) := by
  rw [encode, commandWord, BitVec.toNat_ofNat, Nat.mod_eq_of_lt hk]
  rfl

/-- Settles O6: each line expands to its writes by definition, and the word it writes to `CMD` is its command's code. -/
theorem assemblerLinesWriteTheirCommands : Obligations.AssemblerLinesWriteTheirCommands := by
  have hval {a : Nat} (ha : a < 2 ^ 32) : (BitVec.ofNat 32 a).toNat = a := Nat.mod_eq_of_lt ha
  refine ⟨fun k hk => ⟨_, rfl, decodeCommand_eq_ok_iff.2 (encode_absorbi_ofNat hk)⟩,
    ⟨_, rfl, decodeCommand_eq_ok_iff.2 rfl⟩, fun a n ha hn => ?_,
    fun a ha => ⟨_, _, rfl, hval ha, decodeCommand_eq_ok_iff.2 rfl⟩⟩
  simp only [List.forall_mem_cons, List.not_mem_nil]
  exact ⟨⟨_, _, _, rfl, hval ha, hval hn, decodeCommand_eq_ok_iff.2 rfl⟩,
    ⟨_, _, _, rfl, hval ha, hval hn, decodeCommand_eq_ok_iff.2 rfl⟩,
    ⟨_, _, _, rfl, hval ha, hval hn, decodeCommand_eq_ok_iff.2 rfl⟩,
    ⟨_, _, _, rfl, hval ha, hval hn, decodeCommand_eq_ok_iff.2 rfl⟩, nofun⟩

/-! ## The message orders (rules R77, R78) -/

/-- The message word of step `j` of a round is entry `j` of the round's order. -/
theorem stepRow_k {r j : Nat} (hj : j < 16) : (stepRow (16 * r + j)).k = (roundOrder r).getD j 0 := by
  have hr : (16 * r + j) / 16 = r := by omega
  have hm : (16 * r + j) % 16 = j := by omega
  rw [stepRow, hr, hm]

/-- The message words of a round are the round's order. -/
theorem map_stepRow_k (r : Nat) : (List.range 16).map (fun j => (stepRow (16 * r + j)).k) = roundOrder r := by
  rw [List.map_congr_left fun j hj => stepRow_k (List.mem_range.1 hj)]
  unfold roundOrder
  split <;> rfl

/-- Each order uses every message word once. -/
theorem roundOrder_perm : ∀ r, r < 4 → (roundOrder r).Perm (List.range 16) := by decide

/-- Settles O12: closed forms and permutations are read off the four tables. -/
theorem messageOrdersHaveClosedForms : Obligations.MessageOrdersHaveClosedForms :=
  ⟨by decide, fun r hr => map_stepRow_k r ▸ roundOrder_perm r hr⟩

/-! ## A placed table word (logs 3, 4, 5 and 23) -/

/-- A table word that decodes is a code the decoder accepts. -/
theorem decodeTableWord_eq_some {nbits k : Nat} (h : decodeTableWord nbits k = some i) :
    ∃ c, tableCode nbits k = some c ∧ decode c = .ok i := by
  unfold decodeTableWord at h
  split at h
  · cases h
  · next c hc =>
    refine ⟨c, hc, ?_⟩
    cases hd : decode c with
    | error e => rw [hd] at h; cases h
    | ok j => rw [hd] at h; cases h; rfl

/-- A row of at most 8 bits is a step code below 64 (log 23). -/
theorem tableCode_step {nbits k : Nat} {c : Code} (hn : nbits ≤ 8) (h : tableCode nbits k = some c) :
    k < 64 ∧ c = .step (BitVec.ofNat 6 k) := by
  rw [tableCode, if_pos hn, Option.ite_none_right_eq_some] at h
  exact ⟨h.1, (Option.some.inj h.2).symm⟩

/-- A longer row is a command word (log 23). -/
theorem tableCode_command {nbits k : Nat} {c : Code} (hn : 8 < nbits) (h : tableCode nbits k = some c) :
    c = .command (BitVec.ofNat 32 k) := by
  rw [tableCode, if_neg (Nat.not_le.2 hn), Option.ite_none_right_eq_some] at h
  exact (Option.some.inj h.2).symm

/-- Placing a table word places its code. -/
theorem withFetchWord_of_tableCode {nbits k : Nat} {c : Code} (h : tableCode nbits k = some c) (s : State) :
    s.withFetchWord nbits k = placeCode c s := by
  rw [State.withFetchWord, h]

/-- The `CMD` write of a legal word is its command in every state: both are discarded in the halted one (rules R29, R177). -/
theorem writeCommand_eq_exec (hw : decodeCommand w = .ok i) (s : State) : writeCommand w s = exec i s := by
  by_cases he : s.err = none
  · exact writeCommand_legal he hw
  · rw [writeCommand_halted w he, exec_command (decodeCommand_eq_ok_iff.1 hw), runCommand_halted he]

/-- A placed command word is the next `CMD` write. -/
theorem step_placeCode_command (hw : decodeCommand w = .ok i) (s : State) :
    step (placeCode (.command w) s) = exec i { s with unit := { s.unit with active := false } } :=
  calc step (placeCode (.command w) s)
    _ = hostAccess (.write HostReg.CMD.offset 4 w) { s with unit := { s.unit with active := false } } := step_of_host rfl rfl
    _ = writeCommand w _ := hostAccess_write .CMD w _
    _ = exec i _ := writeCommand_eq_exec hw _

/-- A placed step code is what the sequencer's counter selects. -/
theorem step_placeCode_step {s t : State} (h : exec (decodeStep n) (placeCode (.step n) s) = .next t) :
    step (placeCode (.step n) s) = .next (endOfStep n t) := by
  have hn : (placeCode (.step n) s).unit.step = n := rfl
  rw [step_active rfl, sequencerStep, hn, h]

/-- Settles O42: the layout of the row says which of the two kinds of code is placed. -/
theorem aPlacedWordIsTheNextInstruction : Obligations.APlacedWordIsTheNextInstruction := by
  intro s nbits k i h
  obtain ⟨c, hc, hd⟩ := decodeTableWord_eq_some h
  rw [withFetchWord_of_tableCode hc]
  refine ⟨fun hn => ?_, fun hn t ht => ?_⟩
  · obtain rfl := tableCode_command hn hc
    exact step_placeCode_command hd s
  · obtain ⟨hk, rfl⟩ := tableCode_step hn hc
    cases hd
    have h63 : BitVec.ofNat 6 k = 63 ↔ k = 63 := by
      rw [← BitVec.toNat_inj, BitVec.toNat_ofNat, Nat.mod_eq_of_lt hk]
      rfl
    rw [step_placeCode_step ht, endOfStep]
    simp only [h63]

end Sys2Proof.Machine
end

section
/-! The Block Transform (40_block_transform.md rules R93 to R105): the form without register renaming, what each step instruction
performs, and XFORM. -/

namespace Sys2Proof.Machine

/-! ## The form without register renaming (rule R100) -/

/-- The working registers renamed as one step of rule R93 renames them: each takes the contents of its neighbour. -/
def TransformUnit.rename (u : TransformUnit) : TransformUnit := { u with a := u.d, b := u.a, c := u.b, d := u.c }

/-- Four renamings are none. -/
theorem iterate_rename_mod (n : Nat) (u : TransformUnit) : TransformUnit.rename^[n % 4] u = TransformUnit.rename^[n] u :=
  have hfour : Function.IsPeriodicPt TransformUnit.rename 4 u := rfl
  hfour.iterate_mod_apply n

/-- The commuting square of rule R100: step `n` in the unrolled form, seen through `n + 1` renamings, is step `n` of the unit seen
through `n`. -/
theorem rename_unrolledStep (n : Nat) (u : TransformUnit) :
    TransformUnit.rename^[n + 1] (unrolledStep n u) = (TransformUnit.rename^[n] u).performStep (stepRow n) := by
  rw [Function.iterate_succ_apply', ← iterate_rename_mod, ← iterate_rename_mod n u]
  obtain h | h | h | h : n % 4 = 0 ∨ n % 4 = 1 ∨ n % 4 = 2 ∨ n % 4 = 3 := by omega
  · rw [unrolledStep_zero h, h]; rfl
  · rw [unrolledStep_one h, h]; rfl
  · rw [unrolledStep_two h, h]; rfl
  · rw [unrolledStep_three h, h]; rfl

/-- `n` steps in the unrolled form are `n` steps of the unit, up to the names of the registers. -/
theorem rename_unrolledSteps (u : TransformUnit) (n : Nat) :
    TransformUnit.rename^[n] ((List.range n).foldl (fun v i => unrolledStep i v) u) = unitAfter u n := by
  induction n with
  | zero => rw [unitAfter_zero]; rfl
  | succ n ih =>
    rw [List.range_succ, List.foldl_append, List.foldl_cons, List.foldl_nil, rename_unrolledStep, ih, unitAfter_succ]

/-- Settles O14: after 64 steps, a multiple of four, every register has its own name again. -/
theorem unrolledTransformIsTheTransform : Obligations.UnrolledTransformIsTheTransform := by
  intro h blk
  rw [transform_eq, ← rename_unrolledSteps, ← iterate_rename_mod]
  rfl

/-! ## The step instructions (rules R93, R105) -/

/-- The row of the step table that a step instruction encodes; a command has none. -/
def encodedRow (i : Instr) : Option StepRow :=
  match encode i with
  | .step n => some (stepRow n.toNat)
  | .command _ => none

/-- A step instruction performs its row and changes nothing outside the transform unit. -/
theorem exec_of_encodedRow {i : Instr} {row : StepRow} (h : encodedRow i = some row) (s : State) :
    exec i s = .next { s with unit := s.unit.performStep row } := by
  unfold encodedRow at h
  split at h
  · next n hn =>
    cases h
    rw [exec_step hn, performStep]
  · cases h

/-- Instructions listed with the fields of their rows, all of round `r`, perform those rows. -/
theorem exec_of_encodedRows (r : Nat) {rows : List (Instr × Nat × Nat × Word)}
    (h : ∀ row ∈ rows, encodedRow row.1 = some ⟨r, row.2.1, row.2.2.1, row.2.2.2⟩) :
    ∀ row ∈ rows, ∀ s : State,
      exec row.1 s = .next { s with unit := s.unit.performStep ⟨r, row.2.1, row.2.2.1, row.2.2.2⟩ } :=
  fun row hrow => exec_of_encodedRow (h row hrow)

/-- Settles O7: the sixteen rows listed are those of round 0, whose function is `F_0`. -/
theorem roundOneStepsPerformTheirRows : Obligations.RoundOneStepsPerformTheirRows :=
  exec_of_encodedRows 0 (by decide)

/-- Settles O8: the sixteen rows listed are those of round 1, whose function is `F_1`. -/
theorem roundTwoStepsPerformTheirRows : Obligations.RoundTwoStepsPerformTheirRows :=
  exec_of_encodedRows 1 (by decide)

/-- Settles O9: the sixteen rows listed are those of round 2, whose function is `F_2`. -/
theorem roundThreeStepsPerformTheirRows : Obligations.RoundThreeStepsPerformTheirRows :=
  exec_of_encodedRows 2 (by decide)

/-- Settles O10: the sixteen rows listed are those of round 3, whose function is `F_3`. -/
theorem roundFourStepsPerformTheirRows : Obligations.RoundFourStepsPerformTheirRows :=
  exec_of_encodedRows 3 (by decide)

/-- `F_0` takes the bit of `y` or of `z`, as the bit of `x` says (rule R94). -/
theorem getLsbD_roundFn_zero (x y z : Word) {i : Nat} (hi : i < 32) :
    (roundFn 0 x y z).getLsbD i = if x.getLsbD i then y.getLsbD i else z.getLsbD i := by
  simp only [roundFn, BitVec.getLsbD_or, BitVec.getLsbD_and, BitVec.getLsbD_not, hi, decide_true, Bool.true_and]
  cases x.getLsbD i <;> simp

/-- `F_1` is `F_0` with the selector `z` in first place (rules R94, R95). -/
theorem roundFn_one_eq (x y z : Word) : roundFn 1 x y z = roundFn 0 z x y := by
  rw [roundFn, roundFn, BitVec.and_comm x, BitVec.and_comm y]

/-- Settles O11: both are the selection of `F_0`. -/
theorem roundFunctionsSelectBitByBit : Obligations.RoundFunctionsSelectBitByBit :=
  fun x y z _ hi => ⟨getLsbD_roundFn_zero x y z hi, roundFn_one_eq x y z ▸ getLsbD_roundFn_zero z x y hi⟩

/-! ## The transform's vectors, and XFORM (rule R104) -/

/-- Settles O15: the kernel evaluates one transform for each vector. -/
theorem transformVectorsOfTheSpec : Obligations.TransformVectorsOfTheSpec :=
  ⟨by decide +kernel, by decide +kernel⟩

/-- XFORM completes in an open session when the 64 bytes at `ADDR` exist. -/
theorem exec_xform_completes {s : State} (he : s.err = none) (hs : s.sess = .OPEN) (hr : s.addr.toNat + 64 ≤ 2 ^ 32) :
    exec .xform s = .next (xformEffect s) := by
  have hcheck : firstFault .xform s = none := checkXform_eq s ▸ checkXform_eq_none.2 ⟨hs, hr⟩
  rw [exec_command rfl, runCommand_effect he hcheck, effectOf_xform]

/-- Settles O16: a block is its bytes, so the given block is the one XFORM reads. -/
theorem xformTransformsTheBlockAtAddr : Obligations.XformTransformsTheBlockAtAddr := by
  intro s blk he hs hr hblk
  have hread : blk = s.mem.block (operandAddr s) :=
    block_ext fun k hk => (hblk k hk).trans (byteAt_memBlock s.mem _ hk).symm
  rw [exec_xform_completes he hs hr, xformEffect, hread]

end Sys2Proof.Machine
end

section
/-! The Streaming Accumulator (41_streaming_accumulator.md): INIT, and ABSORBI and ABSORB as one operation, the bytes of a list
absorbed in order. -/

namespace Sys2Proof.Machine

variable {s : State}

/-! ## The state after some bytes -/

/-- The state after the bytes of `bs` have been absorbed in order: what ABSORBI and ABSORB have in common (rule R111). -/
def State.absorbed (s : State) (bs : List Byte) : State := { s with acc := update s.acc bs }

@[simp] theorem State.absorbed_acc (s : State) (bs : List Byte) : (s.absorbed bs).acc = update s.acc bs := rfl

/-- Only the accumulator changes. -/
theorem State.absorbed_frame (s : State) (bs : List Byte) : s.absorbed bs = { s with acc := (s.absorbed bs).acc } := rfl

theorem State.absorbed_append (s : State) (bs cs : List Byte) : s.absorbed (bs ++ cs) = (s.absorbed bs).absorbed cs := by
  simp only [State.absorbed, update_append]

@[simp] theorem update_singleton (acc : Accumulator) (b : Byte) : update acc [b] = absorb acc b := rfl

/-! ## The commands complete -/

/-- INIT has no check (rule R110). -/
theorem exec_init_completes (he : s.err = none) : exec .init s = .next (initEffect s) := by
  rw [exec_command rfl, runCommand_effect he (checkInit_eq s).symm, effectOf_init]

/-- ABSORBI completes in an open session, and absorbs one byte (rule R115). -/
theorem exec_absorbi_completes (he : s.err = none) (hs : s.sess = .OPEN) (b : Byte) :
    exec (.absorbi b) s = .next (s.absorbed [b]) := by
  have hcheck : firstFault (.absorbi b) s = none := checkSession_eq b s ▸ checkSession_eq_none.2 hs
  rw [exec_command rfl, runCommand_effect he hcheck, effectOf_absorbi, absorbiEffect, State.absorbed]

/-- ABSORB completes in an open session when its slice exists, and absorbs the slice (rule R116). -/
theorem exec_absorb_completes (he : s.err = none) (hs : s.sess = .OPEN) (hr : s.addr.toNat + s.len.toNat ≤ 2 ^ 32) :
    exec .absorb s = .next (s.absorbed (s.mem.slice s.addr.toNat s.len.toNat)) := by
  have hcheck : firstFault .absorb s = none := checkAbsorb_eq s ▸ checkAbsorb_eq_none.2 ⟨hs, hr⟩
  rw [exec_command rfl, runCommand_effect he hcheck, effectOf_absorb, absorbEffect, operandAddr, operandLen, State.absorbed]

/-! ## INIT -/

/-- Settles O17: the effect of INIT, with the initial words written out. -/
theorem initCreatesAFreshAccumulator : Obligations.InitCreatesAFreshAccumulator := by
  intro s he
  rw [exec_init_completes he, initEffect, freshAccumulator, initialH]

/-! ## One byte -/

/-- Settles O18, part by part of the accumulator. -/
theorem absorbiAbsorbsItsByte : Obligations.AbsorbiAbsorbsItsByte := by
  intro s b he hs
  have hfill := absorb_fill s.acc b
  refine ⟨s.absorbed [b], exec_absorbi_completes he hs b, s.absorbed_frame [b], ?_⟩
  rw [State.absorbed_acc, update_singleton]
  refine ⟨absorb_count s.acc b, fun k hk => ?_, fun hlt => ⟨by omega, ?_⟩, fun hfull => ⟨?_, ?_⟩⟩
  · rw [absorb_p, byteAt_putByte _ _ _ hk]
  · rw [absorb_h, if_neg (by omega)]
  · apply BitVec.eq_of_toNat_eq
    rw [hfill, hfull]
    rfl
  · rw [absorb_h, if_pos hfull, absorb_p]

/-- A low half that is a multiple of 8 wraps from its last value only (rule R113). -/
theorem countLow_lt_iff {old : Word} (h8 : old.toNat % 8 = 0) : (countLow old).toNat < old.toNat ↔ old = 0xFFFFFFF8 := by
  have hlt := old.isLt
  rw [countLow_toNat, ← BitVec.toNat_inj, show (0xFFFFFFF8 : Word).toNat = 2 ^ 32 - 8 from rfl]
  omega

/-- Settles O19: the two halves after a byte are `countLow` and `countHigh`. -/
theorem carryFollowsTheLowHalf : Obligations.CarryFollowsTheLowHalf := by
  intro acc b
  rw [absorb_c0, absorb_c1]
  exact ⟨rfl, rfl, countLow_lt_iff⟩

/-! ## A slice -/

/-- `update` over a slice reads and absorbs byte by byte, lowest address first (rules R56, R111). -/
theorem update_slice (acc : Accumulator) (m : Memory) (a n : Nat) :
    update acc (m.slice a n) = (List.range n).foldl (fun x i => absorb x (m.read (a + i))) acc := by
  rw [update, Memory.slice, List.foldl_map]

/-- Settles O20: ABSORB is `update` over its slice, whose length is `LEN`. -/
theorem absorbAbsorbsItsSlice : Obligations.AbsorbAbsorbsItsSlice := by
  intro s he hs hr
  refine ⟨_, exec_absorb_completes he hs hr, State.absorbed_frame .., ?_⟩
  rw [State.absorbed_acc]
  refine ⟨update_slice .., ?_, ?_⟩
  · rw [update_count, Memory.slice_length]
  · rw [update_fill, Memory.slice_length]

/-- The address after the last one wraps to 0, where an empty slice is the same. -/
theorem Memory.slice_ofNat (m : Memory) {a n : Nat} (h : a + n ≤ 2 ^ 32) :
    m.slice (BitVec.ofNat 32 a).toNat n = m.slice a n := by
  refine Memory.slice_congr fun i hi => ?_
  rw [BitVec.toNat_ofNat, Nat.mod_eq_of_lt (by omega)]

/-- ABSORB with its operands given as numbers, the address perhaps just past the last one. -/
theorem exec_absorb_at {a n : Nat} (he : s.err = none) (hs : s.sess = .OPEN) (ha : s.addr = BitVec.ofNat 32 a)
    (hl : s.len = BitVec.ofNat 32 n) (hn : n < 2 ^ 32) (hr : a + n ≤ 2 ^ 32) :
    exec .absorb s = .next (s.absorbed (s.mem.slice a n)) := by
  have haddr : s.addr.toNat ≤ a := by rw [ha, BitVec.toNat_ofNat]; exact Nat.mod_le ..
  have hlen : s.len.toNat = n := by rw [hl, BitVec.toNat_ofNat, Nat.mod_eq_of_lt hn]
  rw [exec_absorb_completes he hs (by omega), hlen, ha, Memory.slice_ofNat _ hr]

/-- Settles O21: the slice is the two parts in a row, and `update` of a list in two parts is two updates. -/
theorem splittingASliceDoesNotMatter : Obligations.SplittingASliceDoesNotMatter := by
  intro s m he hs hr hm
  have hlt := s.len.isLt
  have haddr : s.addr = BitVec.ofNat 32 s.addr.toNat := by rw [BitVec.ofNat_toNat, BitVec.setWidth_eq]
  have hslice : s.mem.slice s.addr.toNat s.len.toNat =
      s.mem.slice s.addr.toNat m ++ s.mem.slice (s.addr.toNat + m) (s.len.toNat - m) := by
    rw [← Memory.slice_append, Nat.add_sub_cancel' hm]
  refine ⟨_, _, _, exec_absorb_completes he hs hr, exec_absorb_at he hs haddr rfl (by omega) (by omega),
    exec_absorb_at he hs rfl rfl (by omega) (by omega), ?_⟩
  rw [hslice, State.absorbed_append]
  rfl

/-! ## A slice as immediate bytes -/

theorem Memory.slice_succ (m : Memory) (a n : Nat) : m.slice a (n + 1) = m.slice a n ++ [m.read (a + n)] := by
  rw [Memory.slice_append]
  rfl

/-- A fold over outcomes that advances a sequence of states by one at each index ends at the last of them. -/
theorem foldl_range_next {f : Out → Nat → Out} {states : Nat → State}
    (hstep : ∀ i, f (.next (states i)) i = .next (states (i + 1))) (n : Nat) :
    (List.range n).foldl f (.next (states 0)) = .next (states n) := by
  induction n with
  | zero => rfl
  | succ n ih => rw [List.range_succ, List.foldl_append, ih, List.foldl_cons, List.foldl_nil, hstep]

/-- Settles O22: after `k` of the ABSORBIs the state is the one after the first `k` bytes of the slice. -/
theorem absorbIsItsImmediateBytes : Obligations.AbsorbIsItsImmediateBytes := by
  intro s he hs hr
  rw [exec_absorb_completes he hs hr]
  refine (foldl_range_next (states := fun k => s.absorbed (s.mem.slice s.addr.toNat k)) (fun k => ?_) s.len.toNat).symm
  dsimp only
  rw [exec_absorbi_completes (s := s.absorbed _) he hs, ← State.absorbed_append, ← Memory.slice_succ]

end Sys2Proof.Machine
end

section
/-! Finalization (42_finalization.md): the marker, the last blocks written out over the bytes of memory, the two cases of FINAL, and
what they leave in the counter after a DIGEST (43_sign_apply.md rule R151). -/

namespace Sys2Proof.Machine

variable {s : State}

/-! ## The marker -/

/-- Settles O25: the quarter is even, so its lowest bit is free for the 1. -/
theorem markerIsAQuarterPlusOne : Obligations.MarkerIsAQuarterPlusOne := by
  intro n h8
  have hquarter : n.toNat >>> 2 = 2 ^ 1 * (n.toNat / 8) := by rw [Nat.shiftRight_eq_div_pow]; omega
  calc (marker n).toNat = 2 ^ 1 * (n.toNat / 8) ||| 1 := by
        rw [marker, BitVec.toNat_or, BitVec.toNat_ushiftRight, hquarter]; rfl
    _ = 2 ^ 1 * (n.toNat / 8) + 1 := (Nat.two_pow_add_eq_or_of_lt Nat.one_lt_two _).symm
    _ = n.toNat / 4 + 1 := by omega

/-! ## The last blocks, byte by byte -/

/-- Case A's first block for a tail in memory (rule R135). -/
theorem caseABlock_slice (m : Memory) (a t : Nat) :
    caseABlock (m.slice a t) = blockOf fun k => if k < t then m.read (a + k) else if k = t then 0x80 else 0x00 := by
  refine blockOf_congr fun k _ => ?_
  rw [Memory.slice_length]
  split
  · next hk => exact Memory.slice_getD m a hk
  · rfl

/-- Case A's second block (rule R135). -/
theorem syntheticBlock_eq (n : Word) :
    syntheticBlock n = blockOf fun k =>
      if k < 4 then n.extractLsb' (8 * k) 8 else if k < 60 then 0x00 else (marker n).extractLsb' (8 * (k - 60)) 8 := by
  refine blockOf_congr fun k hk => ?_
  split
  · next h4 => exact le32Byte_eq n h4
  · rw [le32Byte_eq (marker n) (by omega)]

/-- Case B's block for a tail in memory (rule R137). -/
theorem caseBBlock_slice (m : Memory) (a t : Nat) (n : Word) :
    caseBBlock (m.slice a t) n = blockOf fun k =>
      if k < 4 then n.extractLsb' (8 * k) 8
      else if k < t + 4 then m.read (a + (k - 4))
      else if k = t + 4 then 0x80
      else if k < 60 then 0x00
      else (marker n).extractLsb' (8 * (k - 60)) 8 := by
  refine blockOf_congr fun k hk => ?_
  rw [Memory.slice_length, le32Byte_eq (marker n) (by omega)]
  split
  · next h4 => exact le32Byte_eq n h4
  · split
    · next ht => exact Memory.slice_getD m a (by omega)
    · rfl

/-! ## FINAL -/

theorem finalize_eq_caseA (acc : Accumulator) {tail : List Byte} (h : 56 ≤ tail.length) :
    finalize acc tail = caseA acc tail (bitCount acc.c0 tail.length) := if_pos h

theorem finalize_eq_caseB (acc : Accumulator) {tail : List Byte} (h : tail.length < 56) :
    finalize acc tail = caseB acc tail (bitCount acc.c0 tail.length) := if_neg (by omega)

/-- Case A counts its first block and leaves the buffer empty (rule R136). -/
theorem finalize_count_fill_of_longTail {acc : Accumulator} {tail : List Byte} (hf : acc.fill = 0) (h1 : 56 ≤ tail.length)
    (h2 : tail.length ≤ 63) :
    (finalize acc tail).count = (acc.count + 512) % 2 ^ 64 ∧ (finalize acc tail).fill = 0 := by
  obtain ⟨-, -, hfill, -, hcount⟩ := caseA_spec acc tail (bitCount acc.c0 tail.length) hf h1 h2
  rw [finalize_eq_caseA acc h1]
  exact ⟨hcount, hfill⟩

/-- Case B counts the tail and the count bytes, and leaves them in the buffer (rule R138). -/
theorem finalize_count_fill_of_shortTail {acc : Accumulator} {tail : List Byte} (hf : acc.fill = 0) (h : tail.length < 56) :
    (finalize acc tail).count = (acc.count + 8 * (tail.length + 4)) % 2 ^ 64 ∧
      (finalize acc tail).fill.toNat = tail.length + 4 := by
  obtain ⟨-, -, hfill, -, hcount⟩ := caseB_spec acc tail (bitCount acc.c0 tail.length) hf (by omega)
  rw [finalize_eq_caseB acc h]
  exact ⟨hcount, hfill⟩

/-- FINAL completes in an open session with an empty buffer, when its tail is shorter than a block and exists (rule R130). -/
theorem exec_final_completes (he : s.err = none) (hs : s.sess = .OPEN) (hf : s.acc.fill = 0) (hl : s.len.toNat ≤ 63)
    (hr : s.addr.toNat + s.len.toNat ≤ 2 ^ 32) : exec .final s = .next (finalEffect s) := by
  have hcheck : firstFault .final s = none := checkFinal_eq s ▸ checkFinal_eq_none.2 ⟨hs, ⟨hf, hl⟩, hr⟩
  rw [exec_command rfl, runCommand_effect he hcheck, effectOf_final]

/-- FINAL changes the accumulator and the session only. -/
theorem finalEffect_frame (s : State) : finalEffect s = { s with acc := (finalEffect s).acc, sess := .DONE } := rfl

/-- Settles O23: the tail is Case A's, and the low half gains the 64 bytes of its first block. -/
theorem finalWithALongTailIsCaseA : Obligations.FinalWithALongTailIsCaseA := by
  intro s he hs hf h56 h63 hr
  refine ⟨_, exec_final_completes he hs hf h63 hr, finalEffect_frame s, ?_⟩
  have hlen : (s.mem.slice s.addr.toNat s.len.toNat).length = s.len.toNat := Memory.slice_length ..
  obtain ⟨hh, hp, hfill, hc0, hcount⟩ := caseA_spec s.acc (s.mem.slice s.addr.toNat s.len.toNat)
    (bitCount s.acc.c0 s.len.toNat) hf (by omega) (by omega)
  rw [syntheticBlock_eq, caseABlock_slice] at hh
  rw [caseABlock_slice] at hp
  rw [finalEffect_acc, operandAddr, operandLen, finalize_eq_caseA _ (by omega), hlen]
  refine ⟨hh, hp, hfill, BitVec.eq_of_toNat_eq ?_, hcount⟩
  rw [hc0, BitVec.toNat_add]
  rfl

/-- Settles O24: the tail is Case B's, and the low half gains the tail and the four count bytes. -/
theorem finalWithAShortTailIsCaseB : Obligations.FinalWithAShortTailIsCaseB := by
  intro s he hs hf h55 hr
  refine ⟨_, exec_final_completes he hs hf (by omega) hr, finalEffect_frame s, ?_⟩
  have hlen : (s.mem.slice s.addr.toNat s.len.toNat).length = s.len.toNat := Memory.slice_length ..
  obtain ⟨hh, hp, hfill, hc0, hcount⟩ := caseB_spec s.acc (s.mem.slice s.addr.toNat s.len.toNat)
    (bitCount s.acc.c0 s.len.toNat) hf (by omega)
  rw [caseBBlock_slice] at hh hp
  rw [hlen] at hfill hc0 hcount
  rw [finalEffect_acc, operandAddr, operandLen, finalize_eq_caseB _ (by omega), hlen]
  refine ⟨hh, hp, hfill, BitVec.eq_of_toNat_eq ?_, hcount⟩
  rw [hc0, BitVec.toNat_add, BitVec.toNat_add, BitVec.toNat_ofNat, show (32 : Word).toNat = 32 from rfl]
  omega

/-! ## DIGEST -/

/-- DIGEST completes in every session when the container has its header and exists (rule R150). -/
theorem exec_digest_completes (he : s.err = none) (hl : 20 ≤ s.len.toNat) (hr : s.addr.toNat + s.len.toNat ≤ 2 ^ 32) :
    exec .digest s = .next (digestEffect s) := by
  have hcheck : firstFault .digest s = none := checkContainer_eq (.inl rfl) s ▸ checkContainer_eq_none.2 ⟨hl, hr⟩
  rw [exec_command rfl, runCommand_effect he hcheck, effectOf_digest]

@[simp] theorem freshAccumulator_count (p : Block) : (freshAccumulator p).count = 0 := by simp [Accumulator.count]

/-- A fresh accumulator after complete blocks: an empty buffer, and 512 counted for each block. -/
theorem update_freshAccumulator_blocks (p : Block) (m : Memory) (a n : Nat) :
    (update (freshAccumulator p) (m.slice a (64 * n))).fill = 0 ∧
      (update (freshAccumulator p) (m.slice a (64 * n))).count = 512 * n % 2 ^ 64 := by
  refine ⟨(update_blocks _ _ n rfl (Memory.slice_length ..)).1, ?_⟩
  rw [update_count, Memory.slice_length, freshAccumulator_count]
  omega

/-- A long tail is counted as a whole block (rules R136, R151). -/
theorem computeDigest_of_longTail (m : Memory) (base : Nat) {len : Nat} (acc : Accumulator) (h : 56 ≤ (len - 20) % 64) :
    (computeDigest m base len acc).count = 8 * (len - 20 - (len - 20) % 64 + 64) % 2 ^ 64 ∧
      (computeDigest m base len acc).fill = 0 := by
  obtain ⟨hf, hc⟩ := update_freshAccumulator_blocks acc.p m (base + 20) ((len - 20) / 64)
  obtain ⟨hcount, hfill⟩ := finalize_count_fill_of_longTail hf
    (tail := m.slice (base + 20 + 64 * ((len - 20) / 64)) ((len - 20) % 64))
    (by rwa [Memory.slice_length]) (by rw [Memory.slice_length]; omega)
  rw [hc] at hcount
  rw [computeDigest_eq, hcount]
  exact ⟨by omega, hfill⟩

/-- A short tail is counted with the four count bytes (rules R138, R151). -/
theorem computeDigest_of_shortTail (m : Memory) (base : Nat) {len : Nat} (acc : Accumulator) (h : (len - 20) % 64 < 56) :
    (computeDigest m base len acc).count = 8 * (len - 20 + 4) % 2 ^ 64 ∧
      (computeDigest m base len acc).fill.toNat = (len - 20) % 64 + 4 := by
  obtain ⟨hf, hc⟩ := update_freshAccumulator_blocks acc.p m (base + 20) ((len - 20) / 64)
  obtain ⟨hcount, hfill⟩ := finalize_count_fill_of_shortTail hf
    (tail := m.slice (base + 20 + 64 * ((len - 20) / 64)) ((len - 20) % 64)) (by rwa [Memory.slice_length])
  rw [Memory.slice_length] at hcount hfill
  rw [hc] at hcount
  rw [computeDigest_eq, hcount]
  exact ⟨by omega, hfill⟩

/-- A count below 2^35 bits has a high half of at most 7 (rule R206). -/
theorem Accumulator.c1_le_of_count_lt {acc : Accumulator} (h : acc.count < 2 ^ 35) : acc.c1.toNat ≤ 7 := by
  rw [Accumulator.count] at h
  omega

/-- Settles O29: the two tails of `computeDigest`; `LEN` is below 2^32, so neither count reaches 2^35. -/
theorem digestLeavesThisCount : Obligations.DigestLeavesThisCount := by
  intro s he hl hr p
  refine ⟨_, exec_digest_completes he hl hr, ?_⟩
  have hlt := s.len.isLt
  rw [digestEffect_acc, operandAddr, operandLen]
  by_cases h : 56 ≤ p % 64
  · obtain ⟨hcount, hfill⟩ := computeDigest_of_longTail s.mem s.addr.toNat s.acc h
    rw [Nat.mod_eq_of_lt (by omega)] at hcount
    exact ⟨Accumulator.c1_le_of_count_lt (by omega), fun _ => ⟨hcount, hfill⟩, fun h' => absurd h (by omega)⟩
  · obtain ⟨hcount, hfill⟩ := computeDigest_of_shortTail s.mem s.addr.toNat s.acc (Nat.lt_of_not_le h)
    rw [Nat.mod_eq_of_lt (by omega)] at hcount
    exact ⟨Accumulator.c1_le_of_count_lt (by omega), fun h' => absurd h' h, fun _ => ⟨hcount, hfill⟩⟩

end Sys2Proof.Machine
end

section
/-! Sign / Apply (43_sign_apply.md): the digest as the chain of the payload's blocks, as the streaming commands, and as a function
of the payload; the write-back, and what a signed container keeps. -/

namespace Sys2Proof.Machine

variable {s : State}

/-! ## The blocks of a payload -/

/-- A complete block lies within the complete blocks. -/
theorem payloadBlock_append_left (bs cs : List Byte) {i : Nat} (h : 64 * (i + 1) ≤ bs.length) :
    payloadBlock (bs ++ cs) i = payloadBlock bs i := by
  refine blockOf_congr fun k hk => ?_
  rw [append_getD, if_pos (by omega)]

/-- The blocks of a payload given as its complete blocks and its tail (rules R102, R151). -/
theorem payloadBlocks_append {full tail : List Byte} {n : Nat} (hfull : full.length = 64 * n) (htail : tail.length < 64) :
    payloadBlocks (full ++ tail) =
      (List.range n).map (payloadBlock full) ++ lastBlocks tail (BitVec.ofNat 32 (8 * (64 * n + tail.length))) := by
  have hn : (64 * n + tail.length) / 64 = n := by omega
  have hblocks : (List.range n).map (payloadBlock (full ++ tail)) = (List.range n).map (payloadBlock full) :=
    List.map_congr_left fun i hi => by
      have := List.mem_range.1 hi
      exact payloadBlock_append_left full tail (by omega)
  rw [payloadBlocks, List.length_append, hfull, hn, hblocks, List.drop_left' hfull]

theorem lastBlocks_length (tail : List Byte) (n : Word) : (lastBlocks tail n).length = if tail.length ≥ 56 then 2 else 1 := by
  unfold lastBlocks
  split <;> rfl

theorem payloadBlocks_length (payload : List Byte) :
    (payloadBlocks payload).length = payload.length / 64 + (if payload.length % 64 ≥ 56 then 2 else 1) := by
  have htail : payload.length - 64 * (payload.length / 64) = payload.length % 64 := by omega
  rw [payloadBlocks, List.length_append, List.length_map, List.length_range, lastBlocks_length, List.length_drop, htail]

/-! ## The digest is the chain of the blocks -/

/-- The bit count a tail is finalized with is 8 times the whole length (rule R131). -/
theorem bitCount_update_freshAccumulator (p : Block) (bs : List Byte) (t : Nat) :
    bitCount (update (freshAccumulator p) bs).c0 t = BitVec.ofNat 32 (8 * (bs.length + t)) := by
  apply BitVec.eq_of_toNat_eq
  rw [bitCount, BitVec.toNat_add, update_c0, freshAccumulator_c0, show (0 : Word).toNat = 0 from rfl,
    BitVec.toNat_ofNat, BitVec.toNat_ofNat]
  omega

/-- Complete blocks through `update` and the tail through finalization: one transform for each block of the payload. -/
theorem finalize_update_freshAccumulator_h (p : Block) {full tail : List Byte} {n : Nat} (hfull : full.length = 64 * n)
    (htail : tail.length < 64) :
    (finalize (update (freshAccumulator p) full) tail).h = referenceDigest (full ++ tail) := by
  obtain ⟨hfill, hh⟩ := update_blocks (freshAccumulator p) full n (freshAccumulator_fill p) hfull
  rw [finalize_h _ _ hfill (by omega), hh, bitCount_update_freshAccumulator, hfull, freshAccumulator_h, referenceDigest,
    payloadBlocks_append hfull htail, List.foldl_append]

/-- The words ComputeDigest leaves are the reference digest of the payload (rule R151). -/
theorem computeDigest_h (m : Memory) (base len : Nat) (acc : Accumulator) :
    (computeDigest m base len acc).h = referenceDigest (m.slice (base + 20) (len - 20)) := by
  have hslice : m.slice (base + 20) (len - 20) =
      m.slice (base + 20) (64 * ((len - 20) / 64)) ++ m.slice (base + 20 + 64 * ((len - 20) / 64)) ((len - 20) % 64) := by
    rw [← Memory.slice_append, Nat.div_add_mod]
  rw [computeDigest_eq, hslice]
  exact finalize_update_freshAccumulator_h acc.p (Memory.slice_length ..)
    (by rw [Memory.slice_length]; exact Nat.mod_lt _ (by decide))

/-- DIGEST changes the accumulator and the session only. -/
theorem digestEffect_frame (s : State) : digestEffect s = { s with acc := (digestEffect s).acc, sess := .DONE } := rfl

/-- Settles O26: the words are ComputeDigest's, and the blocks are counted over the payload's length. -/
theorem digestIsTheChainOfThePayloadsBlocks : Obligations.DigestIsTheChainOfThePayloadsBlocks := by
  intro s he hl hr payload
  refine ⟨_, exec_digest_completes he hl hr, digestEffect_frame s, ?_, ?_⟩
  · rw [digestEffect_acc, operandAddr, operandLen, computeDigest_h]
  · rw [payloadBlocks_length, Memory.slice_length]

/-! ## The digest is the streaming sequence -/

/-- FINAL with its operands given as numbers, the address perhaps just past the last one. -/
theorem exec_final_at {a n : Nat} (he : s.err = none) (hs : s.sess = .OPEN) (hf : s.acc.fill = 0)
    (ha : s.addr = BitVec.ofNat 32 a) (hl : s.len = BitVec.ofNat 32 n) (hn : n ≤ 63) (hr : a + n ≤ 2 ^ 32) :
    exec .final s = .next { s with acc := finalize s.acc (s.mem.slice a n), sess := .DONE } := by
  have haddr : s.addr.toNat ≤ a := by rw [ha, BitVec.toNat_ofNat]; exact Nat.mod_le ..
  have hlen : s.len.toNat = n := by rw [hl, BitVec.toNat_ofNat, Nat.mod_eq_of_lt (by omega)]
  rw [exec_final_completes he hs hf (by omega) (by omega), finalEffect, operandAddr, operandLen, hlen, ha,
    Memory.slice_ofNat _ hr]

/-- Settles O27: INIT gives the fresh accumulator; ABSORB takes the complete blocks and leaves the buffer empty, so FINAL accepts
the tail; the accumulator is then ComputeDigest's. -/
theorem digestIsTheStreamingSequence : Obligations.DigestIsTheStreamingSequence := by
  intro s he hl hr p
  have hlt := s.len.isLt
  have hfull : p - p % 64 = 64 * (p / 64) := by omega
  have hfill := (update_freshAccumulator_blocks s.acc.p s.mem (s.addr.toNat + 20) (p / 64)).1
  rw [hfull]
  refine ⟨_, _, _, exec_init_completes he, exec_absorb_at he rfl rfl rfl (by omega) (by omega),
    exec_final_at he rfl hfill rfl rfl (by omega) (by omega), ?_⟩
  rw [exec_digest_completes he hl hr, digestEffect, operandAddr, operandLen, computeDigest_eq]
  rfl

/-! ## The digest is a function of the payload -/

/-- Settles O28: the payload bytes are all that ComputeDigest reads. -/
theorem digestDependsOnThePayloadAlone : Obligations.DigestDependsOnThePayloadAlone := by
  intro s t hes het hlen hl hrs hrt hread
  refine ⟨_, _, exec_digest_completes hes hl hrs, exec_digest_completes het (hlen ▸ hl) hrt, ?_⟩
  rw [digestEffect_acc, digestEffect_acc, operandAddr, operandAddr, operandLen, operandLen, ← hlen]
  refine computeDigest_congr _ _ fun i hi => ?_
  rw [Nat.add_assoc, Nat.add_assoc]
  exact hread (20 + i) (by omega) (by omega)

/-! ## SIGN -/

/-- SIGN completes where DIGEST does (rule R152). -/
theorem exec_sign_completes (he : s.err = none) (hl : 20 ≤ s.len.toNat) (hr : s.addr.toNat + s.len.toNat ≤ 2 ^ 32) :
    exec .sign s = .next (signEffect s) := by
  have hcheck : firstFault .sign s = none := checkContainer_eq (.inr rfl) s ▸ checkContainer_eq_none.2 ⟨hl, hr⟩
  rw [exec_command rfl, runCommand_effect he hcheck, effectOf_sign]

/-- The write-back changes memory only. -/
theorem writeBack_frame (s : State) : writeBack s = { s with mem := (writeBack s).mem } := rfl

/-- The write-back leaves byte `k` of word `j` at offset `4 + 4j + k` (rules R38, R153). -/
theorem read_writeBack_slot (hm : s.mem.wf) (hr : s.addr.toNat + 20 ≤ 2 ^ 32) (j : Fin 4) {k : Nat} (hk : k < 4) :
    (writeBack s).mem.read (s.addr.toNat + 4 + 4 * j.val + k) = (s.acc.h[j]).extractLsb' (8 * k) 8 := by
  have hj := j.isLt
  rw [writeBack_mem, operandAddr, Nat.add_assoc (s.addr.toNat + 4), Memory.read_writeBytes_inside hm,
    digestBytes_getD _ j hk]
  · rw [digestBytes_length, Config.memorySize]; omega
  · rw [digestBytes_length]; omega

/-- Settles O30: SIGN is DIGEST's effect and the write-back. -/
theorem signWritesTheDigestIntoTheSlot : Obligations.SignWritesTheDigestIntoTheSlot := by
  intro s he hl hr hm
  exact ⟨_, _, exec_sign_completes he hl hr, exec_digest_completes he hl hr, writeBack_frame (digestEffect s),
    fun j _ hk => read_writeBack_slot (s := digestEffect s) hm (by rw [digestEffect_addr]; omega) j hk,
    fun _ ha => sign_mem_outside s ha⟩

/-! ## Signing again -/

/-- The write-back leaves the payload, so a second DIGEST finds the accumulator it would leave (rules R155, R156). -/
theorem digestEffect_signEffect (s : State) : digestEffect (signEffect s) = signEffect s := by
  have hacc : computeDigest (signEffect s).mem (operandAddr s) (operandLen s) (signEffect s).acc = (signEffect s).acc :=
    computeDigest_congr _ _ fun i _ => sign_mem_outside s (.inr (by omega))
  calc digestEffect (signEffect s)
      = { signEffect s with
          acc := computeDigest (signEffect s).mem (operandAddr s) (operandLen s) (signEffect s).acc } := rfl
    _ = signEffect s := by rw [hacc]

/-- Writing the digest back once more changes nothing. -/
theorem writeBack_writeBack (hm : s.mem.wf) (hr : s.addr.toNat + 20 ≤ 2 ^ 32) : writeBack (writeBack s) = writeBack s := by
  have hmem : (writeBack s).mem.writeBytes (operandAddr s + 4) (digestBytes s.acc.h) = (writeBack s).mem :=
    Memory.writeBytes_again hm _ (by rw [digestBytes_length, operandAddr, Config.memorySize]; omega)
  calc writeBack (writeBack s)
      = { writeBack s with mem := (writeBack s).mem.writeBytes (operandAddr s + 4) (digestBytes s.acc.h) } := rfl
    _ = writeBack s := by rw [hmem]

/-- SIGN of a signed container is its write-back, once more (rule R157). -/
theorem signEffect_signEffect (hm : s.mem.wf) (hr : s.addr.toNat + 20 ≤ 2 ^ 32) : signEffect (signEffect s) = signEffect s := by
  rw [signEffect, digestEffect_signEffect]
  exact writeBack_writeBack (s := digestEffect s) hm (by rwa [digestEffect_addr])

/-- Settles O31: the signed state meets the checks again and is a fixed point of both effects. -/
theorem signingASignedContainerChangesNothing : Obligations.SigningASignedContainerChangesNothing := by
  intro s he hl hr hm
  refine ⟨signEffect s, exec_sign_completes he hl hr, ?_, ?_⟩
  · rw [exec_sign_completes (s := signEffect s) he hl hr, signEffect_signEffect hm (by omega)]
  · rw [exec_digest_completes (s := signEffect s) he hl hr, digestEffect_signEffect]

end Sys2Proof.Machine
end

section
/-! Faults (60_exceptions.md rules R170 to R178): when each line of the order of checks is the first that applies, what the command
then leaves, and the halted engine. -/

namespace Sys2Proof.Machine

variable {i : Instr} {f : FaultCode} {w : Word} {s : State}

/-! ## The lines of the order of checks (rule R178) -/

/-- Order 3: the session comes first (rule R172). -/
theorem firstFault_noSession (hi : needsSession i = true) (hs : s.sess ≠ .OPEN) : firstFault i s = some .noSession := by
  rw [firstFault, if_pos ⟨hi, hs⟩]

/-- Order 4: FINAL's buffer and tail (rule R173). -/
theorem firstFault_badTail (hs : s.sess = .OPEN) (htail : s.acc.fill ≠ 0 ∨ 63 < s.len.toNat) :
    firstFault .final s = some .badTail := by
  rw [firstFault, if_neg fun h => h.2 hs, if_pos ⟨rfl, htail⟩]

/-- Order 5: the length of a container (rule R171). -/
theorem firstFault_shortContainer (hi : i = .digest ∨ i = .sign) (hlen : s.len.toNat < 20) :
    firstFault i s = some .shortContainer := by
  have hsession : needsSession i = false := by rcases hi with rfl | rfl <;> rfl
  have hfinal : i ≠ .final := by rcases hi with rfl | rfl <;> decide
  rw [firstFault, if_neg (by simp [hsession]), if_neg fun h => hfinal h.1, if_pos ⟨hi, hlen⟩]

/-- Order 6: the range, when the earlier lines do not apply (rule R174). -/
theorem firstFault_rangeError {extent : Nat} (hs : needsSession i = true → s.sess = .OPEN)
    (htail : i = .final → s.acc.fill = 0 ∧ s.len.toNat ≤ 63) (hlen : i = .digest ∨ i = .sign → 20 ≤ s.len.toNat)
    (hextent : extentOf i s = some extent) (hr : 2 ^ 32 < s.addr.toNat + extent) : firstFault i s = some .rangeError := by
  have hnoTail : ¬(i = .final ∧ (s.acc.fill ≠ 0 ∨ 63 < s.len.toNat)) := by
    rintro ⟨hi, hfill | hlong⟩
    · exact hfill (htail hi).1
    · exact absurd hlong (Nat.not_lt.2 (htail hi).2)
  rw [firstFault, if_neg fun h => h.2 (hs h.1), if_neg hnoTail, if_neg fun h => Nat.not_lt.2 (hlen h.1) h.2,
    if_pos (by simpa [hextent] using hr)]

/-! ## A command that faults -/

/-- The first check that applies is the fault the command raises (rules R176, R178). -/
theorem exec_fault (hw : encode i = .command w) (he : s.err = none) (hf : firstFault i s = some f) :
    exec i s = .next { s with err := some f, ecmd := w } := by
  rw [exec_command hw, runCommand_fault he hf, takeFault]

/-- A command past its checks has its effect. -/
theorem exec_effect (hw : encode i = .command w) (he : s.err = none) (hf : firstFault i s = none) :
    exec i s = .next (effectOf i s) := by
  rw [exec_command hw, runCommand_effect he hf]

/-- Settles O36: the halted engine, the decoder, then the checks of the decoded command in their order. -/
theorem theFirstApplicableCheckIsReported : Obligations.TheFirstApplicableCheckIsReported := by
  intro w s
  refine ⟨writeCommand_halted w, fun he hillegal => ?_, fun i f he hw hf => ?_, fun i he hw hf => ?_⟩
  · cases hw : decodeCommand w with
    | ok i => exact absurd hw (hillegal i)
    | error e => exact writeCommand_illegal he hw
  · rw [writeCommand_legal he hw, exec_fault (decodeCommand_eq_ok_iff.1 hw) he hf]
  · obtain ⟨herr, hecmd, -⟩ := effectOf_frame i s
    refine ⟨effectOf i s, ?_, herr.trans he, hecmd, effectOf_sess i s⟩
    rw [writeCommand_legal he hw, exec_effect (decodeCommand_eq_ok_iff.1 hw) he hf]

/-- Settles O38: of all a `CMD` write can do, only an illegal word and a check that applies set `ERR`. -/
theorem aFaultChangesErrAndEcmdOnly : Obligations.AFaultChangesErrAndEcmdOnly := by
  intro w s t he h ht
  obtain ⟨hhalted, -⟩ | ⟨-, -, rfl⟩ | ⟨-, i, hw, hi⟩ := writeCommand_cases h
  · exact absurd he hhalted
  · rfl
  · rw [exec_command (decodeCommand_eq_ok_iff.1 hw)] at hi
    obtain ⟨hhalted, -⟩ | ⟨-, f, -, rfl⟩ | ⟨-, -, rfl⟩ := runCommand_cases hi
    · exact absurd he hhalted
    · rfl
    · exact absurd ((effectOf_frame i s).1.trans he) ht

/-! ## The faults one by one -/

/-- Settles O32: the session is the first check of each of the four commands. -/
theorem commandsNeedAnOpenSession : Obligations.CommandsNeedAnOpenSession := fun _ he hs =>
  ⟨fun _ => exec_fault rfl he (firstFault_noSession rfl hs), exec_fault rfl he (firstFault_noSession rfl hs),
    exec_fault rfl he (firstFault_noSession rfl hs), exec_fault rfl he (firstFault_noSession rfl hs)⟩

/-- Settles O33: the session is open, so the tail is the first check that applies. -/
theorem finalRaisesBadTail : Obligations.FinalRaisesBadTail := fun _ he hs htail =>
  exec_fault rfl he (firstFault_badTail hs htail)

/-- Settles O34: the length is the first check of both commands. -/
theorem shortContainersFault : Obligations.ShortContainersFault := fun _ he hlen =>
  ⟨exec_fault rfl he (firstFault_shortContainer (.inl rfl) hlen), exec_fault rfl he (firstFault_shortContainer (.inr rfl) hlen)⟩

/-- Settles O35: each range is the command's last check; a slice of no bytes lies below 2^32 at every address and absorbs nothing. -/
theorem rangesPastTheLastAddressFault : Obligations.RangesPastTheLastAddressFault := by
  intro s he
  refine ⟨fun hs hr => ?_, fun hs hr => ?_, fun hs hfill hlen hr => ?_, fun hlen hr => ⟨?_, ?_⟩, fun hs hlen => ?_⟩
  · exact exec_fault rfl he (firstFault_rangeError (fun _ => hs) nofun nofun rfl hr)
  · exact exec_fault rfl he (firstFault_rangeError (fun _ => hs) nofun nofun rfl hr)
  · exact exec_fault rfl he (firstFault_rangeError (fun _ => hs) (fun _ => ⟨hfill, hlen⟩) nofun rfl hr)
  · exact exec_fault rfl he (firstFault_rangeError nofun nofun (fun _ => hlen) rfl hr)
  · exact exec_fault rfl he (firstFault_rangeError nofun nofun (fun _ => hlen) rfl hr)
  · have hlen0 : s.len.toNat = 0 := by rw [hlen]; rfl
    have hr : s.addr.toNat + s.len.toNat ≤ 2 ^ 32 := by have := s.addr.isLt; omega
    refine ⟨?_, fun hfill => ⟨_, exec_final_completes he hs hfill (by omega) hr, he⟩⟩
    rw [exec_absorb_completes he hs hr, hlen0]
    rfl

/-! ## The halted engine -/

/-- Settles O37: the `CMD` write is discarded undecoded, and no other access looks at `ERR`. -/
theorem aHaltedEngineDiscardsCommands : Obligations.AHaltedEngineDiscardsCommands := by
  intro s rest he ha
  refine ⟨fun w => ?_, fun v => step_write ha .ADDR v rest, fun v => step_write ha .LEN v rest,
    fun r hr => step_read_shown ha hr rest⟩
  exact (step_write ha .CMD w rest).trans (writeCommand_halted w (s := { s with host := rest }) he)

/-- Settles O59: a command answers in its frame and a step performs its row. -/
theorem everyInstructionAnswersANextState : Obligations.EveryInstructionAnswersANextState := exec_next

end Sys2Proof.Machine
end

section
/-! Reset during a command (70_reset_and_hazards.md rule R200, 93_implementation_defined.md item U6): which bytes of memory the
abandoned command may have written. -/

namespace Sys2Proof.Machine

variable {w : Word} {s t : State}

/-- Where each of the writes was made or not, every byte is as before or as all of them leave it (item U6). -/
theorem read_writeSome_old_or_new {m : Memory} (hm : m.wf) (draw : Nat) {a : Nat} (bs : List Byte)
    (h : a + bs.length ≤ Config.memorySize) (b : Nat) :
    (writeSome m draw a bs).read b = m.read b ∨ (writeSome m draw a bs).read b = (m.writeBytes a bs).read b := by
  by_cases hb : b < a ∨ a + bs.length ≤ b
  · exact .inl (read_writeSome_outside m draw bs hb)
  · obtain ⟨i, rfl, hi⟩ : ∃ i, b = a + i ∧ i < bs.length := ⟨b - a, by omega, by omega⟩
    rw [read_writeSome_inside hm draw bs h hi, Memory.read_writeBytes_inside hm bs h hi]
    split
    · exact .inr rfl
    · exact .inl rfl

/-- An abandoned command leaves the host's remaining accesses. -/
theorem abandonCommand_host (w : Word) (s : State) : (abandonCommand w s).host = s.host := by
  obtain heq | ⟨-, -, -, -, -, heq⟩ := abandonCommand_cases w s <;> rw [heq]

/-- What an abandoned command leaves in memory does not depend on the host's remaining accesses. -/
theorem abandonCommand_mem_of_host (w : Word) (s : State) (rest : List HostAccess) :
    (abandonCommand w { s with host := rest }).mem = (abandonCommand w s).mem := by
  simp only [abandonCommand, apply_ite State.mem]
  rfl

/-- An abandoned command leaves every byte outside the slot of `ADDR` as it was. -/
theorem abandonCommand_mem_outside (w : Word) {a : Nat} (ha : a < s.addr.toNat + 4 ∨ s.addr.toNat + 20 ≤ a) :
    (abandonCommand w s).mem.read a = s.mem.read a := by
  obtain heq | ⟨-, -, -, -, hmem, -⟩ := abandonCommand_cases w s
  · rw [heq]
  · rw [hmem]
    refine read_writeSome_outside _ _ _ ?_
    rw [digestBytes_length]
    omega

/-- An abandoned command leaves every byte as it was or as the completed command leaves it: the one that writes, a SIGN past its
checks, would have completed. -/
theorem abandonCommand_mem_old_or_new (hm : s.mem.wf) (h : writeCommand w s = .next t) (a : Nat) :
    (abandonCommand w s).mem.read a = s.mem.read a ∨ (abandonCommand w s).mem.read a = t.mem.read a := by
  obtain heq | ⟨he, hw, hl, hr, hmem, -⟩ := abandonCommand_cases w s
  · exact .inl (by rw [heq])
  · rw [writeCommand_legal he hw, exec_sign_completes he hl hr, ← effectOf_sign] at h
    cases h
    rw [hmem, sign_mem]
    refine read_writeSome_old_or_new hm _ _ ?_ a
    rw [digestBytes_length, Config.memorySize]
    omega

/-- Settles O50: the step is a reset of the abandoned command's state, and a reset keeps memory. -/
theorem resetDuringACommandLeavesSlotBytesOldOrNew : Obligations.ResetDuringACommandLeavesSlotBytesOldOrNew := by
  intro s rest w hu hm
  refine ⟨hardwareReset (abandonCommand w { s with host := rest }), step_access _ _ hu, rfl, rfl, rfl, rfl, rfl,
    abandonCommand_host w _, ?_⟩
  rw [hardwareReset_mem, abandonCommand_mem_of_host]
  exact ⟨fun _ ha => abandonCommand_mem_outside w ha, fun _ hd => abandonCommand_mem_old_or_new hm hd⟩

end Sys2Proof.Machine
end
